-- ==== Sys2Proof/Word.lean ====
section
/-! DEFINITION. The Word (16 bits) and the Byte (the unit of the two channels): 00_scope.md R10, R11; 10_state.md R21. -/

namespace Sys2Proof

/-- R10, R21: the unsigned 16-bit quantity that is data, address, instruction field and program counter alike.
Its `+` and `-` are `+16` and `-16` of R11: they wrap modulo 65536. -/
abbrev Word := BitVec 16

/-- R110: the unit of a channel transaction. -/
abbrev Byte := BitVec 8

end Sys2Proof
end

