-- ==== Sys2Proof/Config.lean ====
section
/-! DEFINITION. The fixed parameters of the hardware (00_scope.md R6), and what the environment decides (R9): the free answers of
the input channel and the status that a run returns. -/

namespace Sys2Proof

/-- 41_io.md R111: the 257 things `ReadByte()` can give: one byte, or the one outcome that stands for end of stream and for read
failure ("the machine cannot tell them apart"). -/
inductive InputAnswer where
  | byte (n : Byte)
  | endOrFailure
  deriving DecidableEq, Repr, Inhabited

namespace Config

/-- R6 `SENTINEL`. -/
def sentinel : Word := 0xFFFF

/-- R6 `MEMSIZE`, in Words. -/
def memSize : Nat := 65536

/-- R6 `ILEN`: Words per instruction, and what the advance adds to `pc`. -/
def ilen : Word := 3

/-- R6 `PC_RESET`. -/
def pcReset : Word := 0

/-- FREE VALUE (assumption 2). 41_io.md R117, decision D6: the oracle. The answer the environment gives to the `k`-th `ReadByte()`
when State holds no answer of its own for it. Nothing is known of it but that it is one of the 257 answers of R111. -/
opaque inputAnswer : Nat → InputAnswer

/-- The type of the status that `run` returns: a type the model chooses (decision D5). -/
abbrev Status := Nat

/-- FREE VALUE (assumption 7). R9, 40_sequencer.md R99, decision D5: `STATUS_SUCCESS`, one constant whose number the source does
not give. -/
opaque statusSuccess : Status

end Config

end Sys2Proof
end

