-- ==== Sys2Proof/Syntax.lean ====
section
/-! DEFINITION. The triple of Words (30_encoding.md R70), the three forms it selects (R73, opcode_table.json), and the
pseudo-instructions, which are spellings of SUBLEQ (R79). -/

namespace Sys2Proof

/-- R15, R70: the three consecutive Words of one instruction, `a` at the lowest address. -/
structure Triple where
  a : Word
  b : Word
  c : Word
  deriving DecidableEq, Repr

/-- One constructor per row of opcode_table.json. Each holds the Words of its triple that the form leaves free: IN and OUT keep
their ignored field `c`, so that no bit of an encoding is lost. -/
inductive Instr where
  /-- IN `b` (41_io.md R113): `[0xFFFF, b, c]`. -/
  | input (b c : Word)
  /-- OUT `a` (41_io.md R114): `[a, 0xFFFF, c]`. -/
  | output (a c : Word)
  /-- SUBLEQ `a, b, c` (42_subleq.md R130): `[a, b, c]`. -/
  | subleq (a b c : Word)
  deriving DecidableEq, Repr

/-- The name of the form's row in opcode_table.json (R78). -/
def Instr.mnemonic : Instr → String
  | .input _ _ => "IN"
  | .output _ _ => "OUT"
  | .subleq _ _ _ => "SUBLEQ"

/-- The third Word of the instruction (R70). -/
def Instr.fieldC : Instr → Word
  | .input _ c => c
  | .output _ c => c
  | .subleq _ _ c => c

namespace Pseudo

/-- R79 (a): `CLR x, c`. -/
def clr (x c : Word) : Instr := .subleq x x c

/-- R79 (b): `JMP c`, with the zero cell `z`. -/
def jmp (z c : Word) : Instr := .subleq z z c

/-- R79 (c): `HALT`, with the zero cell `z`. -/
def halt (z : Word) : Instr := .subleq z z 0x8000

/-- R79 (d): `SUB a, b` at address `p`. -/
def sub (a b p : Word) : Instr := .subleq a b (p + Config.ilen)

/-- R79 (e): `NOP` at address `p`, with the zero cell `z`. -/
def nop (z p : Word) : Instr := .subleq z z (p + Config.ilen)

/-- R79 (f): `BLEZ b, c`, with the zero cell `z`. -/
def blez (z b c : Word) : Instr := .subleq z b c

end Pseudo

end Sys2Proof
end

