-- ==== Sys2Proof/WellFormed.lean ====
section
/-! DEFINITION. Which terms of Instr stand for a triple of their own form (30_encoding.md R73, R78): an OUT or a SUBLEQ names no
operand whose value is the sentinel. -/

namespace Sys2Proof

/-- R73, R78 (b), (d): IN has no condition; OUT needs `a != 0xFFFF`; SUBLEQ needs `a != 0xFFFF` and `b != 0xFFFF`. -/
def Instr.WellFormed : Instr → Bool
  | .input _ _ => true
  | .output a _ => a != Config.sentinel
  | .subleq a b _ => a != Config.sentinel && b != Config.sentinel

end Sys2Proof
end

