-- ==== Sys2Proof/Decode.lean ====
section
/-! DEFINITION. The decoder, total on every triple: there is no illegal encoding to reject (30_encoding.md R75). The encoder, the
48-bit instruction value (R71), and the opcode table as rows of mask and match (R73). -/

namespace Sys2Proof

/-- R73, R96: `a` is compared with the sentinel first, then `b`; `c` takes no part. -/
def decode (t : Triple) : Instr :=
  if t.a = Config.sentinel then .input t.b t.c
  else if t.b = Config.sentinel then .output t.a t.c
  else .subleq t.a t.b t.c

/-- R113, R114, R130, paragraph "Encoding" of each. -/
def encode : Instr → Triple
  | .input b c => ⟨Config.sentinel, b, c⟩
  | .output a c => ⟨a, Config.sentinel, c⟩
  | .subleq a b c => ⟨a, b, c⟩

/-- R71: the instruction value `a‖b‖c`, with `a` in bits 47:32. -/
def Triple.value (t : Triple) : BitVec 48 := t.a ++ t.b ++ t.c

/-- R71, read back: `I[47:32]`, `I[31:16]`, `I[15:0]` of a number. -/
def tripleOfValue (w : Nat) : Triple :=
  ⟨BitVec.ofNat 16 (w / 2 ^ 32), BitVec.ofNat 16 (w / 2 ^ 16), BitVec.ofNat 16 w⟩

/-- What the decoder reads from an instruction value numbered as opcode_table.json numbers it (R71, assumption 6): `a` is bits 47:32
although it is the first Word in memory. The bits at and above `nbits` are 0. -/
def decodeTableWord (nbits w : Nat) : Option Instr :=
  some (decode (tripleOfValue (w % 2 ^ nbits)))

/-- One row of opcode_table.json. -/
structure OpcodeRow where
  mnemonic : String
  mask : BitVec 48
  pattern : BitVec 48
  deriving DecidableEq, Repr

/-- opcode_table.json and the last paragraph of R73: the three rows in priority order. -/
def opcodeTable : List OpcodeRow :=
  [⟨"IN", 0xFFFF00000000, 0xFFFF00000000⟩,
   ⟨"OUT", 0x0000FFFF0000, 0x0000FFFF0000⟩,
   ⟨"SUBLEQ", 0x000000000000, 0x000000000000⟩]

/-- R73: the first row of the table that matches the instruction value. -/
def selectRow (w : BitVec 48) : Option OpcodeRow :=
  opcodeTable.find? (fun row => w &&& row.mask == row.pattern)

end Sys2Proof
end

