-- ==== Sys2Proof/Machine/State.lean ====
section
/-! DEFINITION. The spec's state, the pair (pc, mem) and nothing else (10_state.md R20); the environment, which the spec passes to each step as
a parameter (R32); and State, which sets the two side by side because the host's step takes one argument. The memory, the values after
reset, and the reasons to stop. -/

namespace Sys2Proof.Machine

/-- Cells as (address, Word) pairs. A cell is one whole Word, because the Word is the unit of addressing and has no byte order (20_memory.md
R40, R43; assumption 1). -/
abbrev Cells := List (Nat × Word)

/-- The canonical form: addresses strictly rising, every address one of the 65536 (R40), and no entry equal to the 0 that an unlisted address
reads as. -/
abbrev Cells.wf (cells : Cells) : Prop :=
  List.Pairwise (fun p q => p.1 < q.1) cells ∧ ∀ p ∈ cells, p.1 < 65536 ∧ p.2 ≠ 0

/-- 10_state.md R20, R30: the memory, a Word at each of the 65536 addresses. The listing is in canonical form by its type, so there is exactly
one Memory for each total function from addresses to Words (`Memory.read`). An address that is not listed reads as 0, the zero fill of
`Construct` (R33). -/
structure Memory where
  cells : Cells
  canonical : cells.wf
  deriving DecidableEq, Repr

/-- The canonical form of a memory's listing, which every memory has. -/
abbrev Memory.wf (m : Memory) : Prop := m.cells.wf

/-- The memory of which every cell is 0. -/
def Memory.zero : Memory := ⟨[], .nil, nofun⟩

/-- 41_io.md R111, R115: what the input source does when `ReadByte()` is attempted once. -/
inductive InputEvent where
  /-- There is no answer yet: the IN holds (R115). -/
  | notYet
  /-- The source answers (R111). -/
  | answer (v : InputAnswer)
  deriving DecidableEq, Repr

/-- What the input source does when its listed events are used up. -/
inductive InputTail where
  /-- R117, the default model: an oracle; each answer is a free value. -/
  | free
  /-- R117, `INPUT_STREAM`: sticky end of stream. The tail itself never holds; holds are listed events (assumption 13). -/
  | ended
  /-- R115: the source never answers, and the IN holds for ever. -/
  | silent
  deriving DecidableEq, Repr

/-- 41_io.md R110: the input channel (environment, not machine state, R32; assumption 2). -/
structure InputChannel where
  /-- What the source does at the next attempts, soonest first. -/
  pending : List InputEvent
  /-- What it does after these. -/
  tail : InputTail
  /-- 40_sequencer.md R103: the answers given so far, oldest first. -/
  consumed : List InputAnswer
  deriving DecidableEq, Repr

/-- 41_io.md R112, R115: what the output sink does when `WriteByte` is attempted once. -/
inductive OutputEvent where
  /-- The sink has not accepted yet: the OUT holds (R115). -/
  | notYet
  /-- The sink takes the byte. -/
  | taken
  /-- The sink fails; the CORE ignores that (R112). -/
  | failed
  deriving DecidableEq, Repr

/-- What the output sink does when its listed events are used up. -/
inductive OutputTail where
  /-- It ends every transaction; whether it keeps the byte cannot be seen (R118). -/
  | ready
  /-- R115: it never accepts, and the OUT holds for ever. -/
  | silent
  deriving DecidableEq, Repr

/-- 41_io.md R110: the output channel (environment, not machine state, R32; assumption 3). -/
structure OutputChannel where
  /-- What the sink does at the next attempts, soonest first. -/
  pending : List OutputEvent
  /-- What it does after these. -/
  tail : OutputTail
  /-- R118: the bytes presented to `WriteByte` so far, oldest first. -/
  presented : List Byte
  deriving DecidableEq, Repr

/-- An input channel of which nothing is known and from which nothing was read: R117's oracle. -/
def InputChannel.fresh : InputChannel := ⟨[], .free, []⟩

/-- An output channel that accepts, and to which nothing was written. -/
def OutputChannel.fresh : OutputChannel := ⟨[], .ready, []⟩

/-- R20: the state of the machine, exactly the pair `(pc, mem)`. The memory as a total function is `MachineState.memRead`; two such pairs are
equal exactly when their `pc` values are equal and their memories agree at all 65536 addresses. -/
structure MachineState where
  pc : Word
  mem : Memory
  deriving DecidableEq, Repr

/-- R32 (b), (c): what is NOT state of the machine: the input source and the output sink of the run in progress, with the answers and
the bytes that have passed. No effect of an instruction on the machine takes an Environment: it is passed what `ReadByte()` answered. -/
structure Environment where
  input : InputChannel
  output : OutputChannel
  deriving DecidableEq, Repr

/-- What a step of the host's interface takes and gives: the machine (R20), and the environment passed in with it (R32, assumptions 2
and 3). -/
structure State where
  machine : MachineState
  env : Environment
  deriving DecidableEq, Repr

/-- The program counter of the machine (R23). -/
@[simp] abbrev State.pc (s : State) : Word := s.machine.pc

/-- The memory of the machine (R30). -/
@[simp] abbrev State.mem (s : State) : Memory := s.machine.mem

/-- The input channel of the run in progress (41_io.md R110). -/
@[simp] abbrev State.input (s : State) : InputChannel := s.env.input

/-- The output channel of the run in progress (41_io.md R110). -/
@[simp] abbrev State.output (s : State) : OutputChannel := s.env.output

/-- 60_exceptions.md R150, 40_sequencer.md R97: the machine has no fault, so the type has no constructor: nothing can raise one. -/
inductive Fault where
  deriving DecidableEq, Repr

/-- The reasons to refuse. No instruction refuses (R97). -/
inductive Refusal where
  /-- Raised by an arm of exec for an instruction that has no meaning yet; no arm is left that raises it. Safe. -/
  | notModelled (mnemonic : String)
  /-- Raised by the host operation `construct` alone, for an image of more than 65536 Words (70_reset_and_hazards.md R172). Safe: no
  machine results, and no claim can be made about a run from it. -/
  | imageTooLong
  deriving DecidableEq, Repr

/-- R33, R35: the machine as `Construct` leaves it, with the empty image (R171: valid; assumption 5): `pc` = 0, every cell 0. The
image of a program is loaded from outside (R9). -/
def MachineState.reset : MachineState where
  pc := Config.pcReset
  mem := Memory.zero

/-- The environment before anything is known of it: both channels fresh (assumptions 2 and 3). -/
def Environment.fresh : Environment := ⟨InputChannel.fresh, OutputChannel.fresh⟩

/-- The machine right after `Construct`, and a fresh environment. -/
def State.reset : State := ⟨MachineState.reset, Environment.fresh⟩

end Sys2Proof.Machine
end

