-- ==== Sys2Proof/Machine/Ops.lean ====
section
/-! DEFINITION. The named operations over memory, program counter and channels. There is no exception to take and none to return from
(60_exceptions.md R150, R153, R154), so no operation for either stands here. -/

namespace Sys2Proof.Machine

/-! The operations on listings, each with the reason why it keeps the canonical form. -/

/-- The Word listed for an address, 0 where none is (R33). -/
def Cells.lookup : Cells → Nat → Word
  | [], _ => 0
  | (k, v) :: m, n => if k = n then v else Cells.lookup m n

/-- The listing with an entry put at its place by address. -/
def Cells.insert : Cells → Nat → Word → Cells
  | [], n, v => [(n, v)]
  | (k, w) :: m, n, v => if n < k then (n, v) :: (k, w) :: m else (k, w) :: Cells.insert m n v

/-- The listing without the entry of an address. -/
def Cells.erase (m : Cells) (n : Nat) : Cells := m.filter (fun p => p.1 != n)

/-- The listing after a write; the 0 that an unlisted address reads as leaves no entry. -/
def Cells.write (m : Cells) (n : Nat) (v : Word) : Cells :=
  if v = 0 then Cells.erase m n else Cells.insert (Cells.erase m n) n v

/-- 70_reset_and_hazards.md R171: the listing of the zero-filled memory with the image copied from address `k` up. -/
def Cells.ofImage : Nat → List Word → Cells
  | _, [] => []
  | k, w :: ws => if w = 0 then Cells.ofImage (k + 1) ws else (k, w) :: Cells.ofImage (k + 1) ws

theorem Cells.mem_erase {m : Cells} {n : Nat} {p : Nat × Word} (h : p ∈ Cells.erase m n) : p ∈ m ∧ p.1 ≠ n := by
  simpa [Cells.erase] using h

theorem Cells.mem_insert {m : Cells} {n : Nat} {v : Word} {p : Nat × Word} (h : p ∈ Cells.insert m n v) :
    p = (n, v) ∨ p ∈ m := by
  induction m with
  | nil => simpa [Cells.insert] using h
  | cons q m ih =>
    obtain ⟨k, w⟩ := q
    by_cases hn : n < k
    · simpa [Cells.insert, hn] using h
    · simp only [Cells.insert, hn, if_false, List.mem_cons] at h ⊢
      rcases h with h | h
      · exact .inr (.inl h)
      · exact (ih h).imp_right .inr

theorem Cells.insert_pairwise {m : Cells} (n : Nat) (v : Word)
    (hm : List.Pairwise (fun p q : Nat × Word => p.1 < q.1) m) (hn : ∀ p ∈ m, p.1 ≠ n) :
    List.Pairwise (fun p q : Nat × Word => p.1 < q.1) (Cells.insert m n v) := by
  induction m with
  | nil => simp [Cells.insert]
  | cons q m ih =>
    obtain ⟨k, w⟩ := q
    have hk : k ≠ n := hn (k, w) (by simp)
    obtain ⟨h1, h2⟩ := List.pairwise_cons.mp hm
    by_cases hlt : n < k
    · simp only [Cells.insert, hlt, if_true]
      refine List.pairwise_cons.mpr ⟨fun p hp => ?_, hm⟩
      rcases List.mem_cons.mp hp with rfl | hp
      · exact hlt
      · exact hlt.trans (h1 p hp)
    · simp only [Cells.insert, hlt, if_false]
      refine List.pairwise_cons.mpr ⟨fun p hp => ?_, ih h2 fun p hp => hn p (by simp [hp])⟩
      rcases Cells.mem_insert hp with rfl | hp
      · exact Nat.lt_of_le_of_ne (Nat.le_of_not_lt hlt) hk
      · exact h1 p hp

/-- The erasing of an entry keeps the canonical form. -/
theorem Cells.erase_wf {m : Cells} (h : m.wf) (n : Nat) : (Cells.erase m n).wf :=
  ⟨h.1.filter _, fun p hp => h.2 p (Cells.mem_erase hp).1⟩

/-- A write inside the 65536 addresses keeps the canonical form. -/
theorem Cells.write_wf {m : Cells} (h : m.wf) {n : Nat} (hn : n < 65536) (v : Word) : (Cells.write m n v).wf := by
  unfold Cells.write
  have he := Cells.erase_wf h n
  split
  · exact he
  · next hv =>
    refine ⟨Cells.insert_pairwise _ _ he.1 fun p hp => (Cells.mem_erase hp).2, fun p hp => ?_⟩
    rcases Cells.mem_insert hp with rfl | hp
    · exact ⟨hn, hv⟩
    · exact he.2 p hp

theorem Cells.mem_ofImage {k : Nat} {image : List Word} {p : Nat × Word} (h : p ∈ Cells.ofImage k image) :
    k ≤ p.1 ∧ p.1 < k + image.length ∧ p.2 ≠ 0 := by
  induction image generalizing k with
  | nil => simp [Cells.ofImage] at h
  | cons w ws ih =>
    unfold Cells.ofImage at h
    split at h
    · obtain ⟨h1, h2, h3⟩ := ih h; simp only [List.length_cons]; exact ⟨by omega, by omega, h3⟩
    · next hw =>
      rcases List.mem_cons.mp h with rfl | h
      · exact ⟨Nat.le_refl _, by simp, hw⟩
      · obtain ⟨h1, h2, h3⟩ := ih h; simp only [List.length_cons]; exact ⟨by omega, by omega, h3⟩

/-- An image that fits is listed in canonical form. -/
theorem Cells.ofImage_wf {k : Nat} {image : List Word} (h : k + image.length ≤ 65536) : (Cells.ofImage k image).wf := by
  refine ⟨?_, fun p hp => ?_⟩
  · clear h
    induction image generalizing k with
    | nil => simp [Cells.ofImage]
    | cons w ws ih =>
      unfold Cells.ofImage
      split
      · exact ih
      · exact List.pairwise_cons.mpr ⟨fun p hp => (Cells.mem_ofImage hp).1, ih⟩
  · obtain ⟨-, h2, h3⟩ := Cells.mem_ofImage hp
    exact ⟨by omega, h3⟩

/-- 20_memory.md R41: `MemRead(addr, 1)` on the memory alone. -/
def Memory.read (m : Memory) (addr : Word) : Word := Cells.lookup m.cells addr.toNat

/-- 20_memory.md R41: `MemWrite(addr, 1, v)` on the memory alone. -/
def Memory.write (m : Memory) (addr v : Word) : Memory :=
  ⟨Cells.write m.cells addr.toNat v, Cells.write_wf m.canonical addr.isLt v⟩

/-- R171: the memory that `Construct(IMAGE)` leaves, for an image that fits. -/
def Memory.ofImage (image : List Word) (h : image.length ≤ Config.memSize) : Memory :=
  ⟨Cells.ofImage 0 image, Cells.ofImage_wf ((Nat.zero_add _).symm ▸ h)⟩

/-- R12, R41: `MemRead(addr, 1)`. -/
def MachineState.memRead (m : MachineState) (addr : Word) : Word := m.mem.read addr

/-- R12, R41: `MemWrite(addr, 1, v)`. -/
def MachineState.memWrite (m : MachineState) (addr v : Word) : MachineState := { m with mem := m.mem.write addr v }

/-- R12: `pc <- target`. -/
def MachineState.setPc (m : MachineState) (target : Word) : MachineState := { m with pc := target }

/-- 40_sequencer.md R95: `pc <- pc +16 3`. -/
def MachineState.advance (m : MachineState) : MachineState := m.setPc (m.pc + Config.ilen)

/-- 10_state.md R24, 40_sequencer.md R91, R93: the phase, which is `pc[15]` and nothing else. -/
def MachineState.halted (m : MachineState) : Bool := m.pc.msb

/-- 70_reset_and_hazards.md R173: the host operation `Reset`. It writes `pc` only. -/
def MachineState.warmReset (m : MachineState) : MachineState := m.setPc Config.pcReset

/-- The same environment around a machine on which `f` has acted. -/
def State.onMachine (s : State) (f : MachineState → MachineState) : State := { s with machine := f s.machine }

/-- The Word in a cell of the machine. -/
@[simp] abbrev State.memRead (s : State) (addr : Word) : Word := s.machine.memRead addr

/-- The phase of the machine. -/
@[simp] abbrev State.halted (s : State) : Bool := s.machine.halted

/-- The host's `Reset` of the machine (R173). -/
def State.warmReset (s : State) : State := s.onMachine MachineState.warmReset

/-- A cell of the machine replaced. -/
def State.memWrite (s : State) (addr v : Word) : State := s.onMachine (fun m => m.memWrite addr v)

/-- The input channel after an attempt. -/
def State.setInput (s : State) (ch : InputChannel) : State := { s with env := { s.env with input := ch } }

/-- The output channel after an attempt. -/
def State.setOutput (s : State) (ch : OutputChannel) : State := { s with env := { s.env with output := ch } }

/-- The channel after an answer, which `ReadByte()` consumes (R111). -/
def InputChannel.took (ch : InputChannel) (v : InputAnswer) : InputChannel :=
  { ch with pending := ch.pending.tail, consumed := ch.consumed ++ [v] }

/-- 41_io.md R111, R115, R117: one attempt at `ReadByte()`. `none`: there is no answer yet, and the instruction holds. -/
def InputChannel.readByte (ch : InputChannel) : Option InputAnswer × InputChannel :=
  match ch.pending with
  | .notYet :: rest => (none, { ch with pending := rest })
  | .answer v :: _ => (some v, ch.took v)
  | [] =>
    match ch.tail with
    | .free => (some (Config.inputAnswer ch.consumed.length), ch.took (Config.inputAnswer ch.consumed.length))
    | .ended => (some .endOrFailure, ch.took .endOrFailure)
    | .silent => (none, ch)

/-- The channel after a transaction that presented `v` (R118). -/
def OutputChannel.presenting (ch : OutputChannel) (v : Byte) : OutputChannel :=
  { ch with pending := ch.pending.tail, presented := ch.presented ++ [v] }

/-- 41_io.md R112, R115: one attempt at `WriteByte(v)`. `false`: the sink has not accepted, and the instruction holds. Whether the sink
took the byte or failed makes no difference (R112), so no result is given. -/
def OutputChannel.writeByte (ch : OutputChannel) (v : Byte) : Bool × OutputChannel :=
  match ch.pending with
  | .notYet :: rest => (false, { ch with pending := rest })
  | .taken :: _ => (true, ch.presenting v)
  | .failed :: _ => (true, ch.presenting v)
  | [] =>
    match ch.tail with
    | .ready => (true, ch.presenting v)
    | .silent => (false, ch)

end Sys2Proof.Machine
end

