-- ==== Sys2Proof/Machine/Operands.lean ====
section
/-! DEFINITION. The operand forms (30_encoding.md R72, 42_subleq.md R136): the one addressing mode, absolute direct, and the two width
changes at the channels (41_io.md R111, R114). -/

namespace Sys2Proof.Machine

/-- R72, R136: a field that names an operand is the address of its cell, used exactly as fetched. -/
def effectiveAddress (field : Word) : Word := field

/-- R72: the Word in the cell that a field names. -/
def MachineState.operand (m : MachineState) (field : Word) : Word := m.memRead (effectiveAddress field)

/-- R113, R130: the store into the cell that a field names. -/
def MachineState.storeOperand (m : MachineState) (field v : Word) : MachineState := m.memWrite (effectiveAddress field) v

/-- R114: `x[7:0]`. -/
def lowByte (x : Word) : Byte := x.setWidth 8

/-- R111: the Word `ReadByte()` returns: the byte zero-extended, or the sentinel at end of stream and on failure. -/
def inputWord : InputAnswer → Word
  | .byte n => n.setWidth 16
  | .endOrFailure => Config.sentinel

end Sys2Proof.Machine
end

