-- ==== Sys2Proof/Machine/Io.lean ====
section
/-! DEFINITION. The two sentinel forms, IN and OUT (41_io.md R113 to R116). An attempt at a channel that has no answer is a step that leaves
`pc` and `mem` as they were: the hold of R115 (assumption 4). -/

namespace Sys2Proof.Machine

/-- R113, after the fetch, with `v` the Word that `ReadByte()` returned (R32: passed in): the advance, and the store of the whole Word into
`mem[b]`. -/
def inputEffect (b v : Word) (m : MachineState) : MachineState := m.advance.storeOperand b v

/-- R113, R115: one attempt at `ReadByte()`, and with its answer the effect on the machine. `c` is ignored. -/
def execInput (b _c : Word) (s : State) : Host.Outcome State Fault Refusal :=
  match s.input.readByte with
  | (none, ch) => .next (s.setInput ch)
  | (some v, ch) => .next ((s.setInput ch).onMachine (inputEffect b (inputWord v)))

/-- R114: the byte that OUT hands to `WriteByte`: `mem[a][7:0]`. -/
def outputByte (a : Word) (m : MachineState) : Byte := lowByte (m.operand a)

/-- R114, after the fetch: the advance; memory is not changed. -/
def outputEffect (m : MachineState) : MachineState := m.advance

/-- R114, R115: one attempt at `WriteByte`, and once the sink has ended it the effect on the machine. `c` is ignored. -/
def execOutput (a _c : Word) (s : State) : Host.Outcome State Fault Refusal :=
  match s.output.writeByte (outputByte a s.machine) with
  | (false, ch) => .next (s.setOutput ch)
  | (true, ch) => .next ((s.setOutput ch).onMachine outputEffect)

end Sys2Proof.Machine
end

