-- ==== Sys2Proof/Machine/Flags.lean ====
section
/-! DEFINITION. There are no flags and no condition codes (10_state.md R26). What stands here is the difference that SUBLEQ computes and the
branch condition it reads off that difference at once (42_subleq.md R131, R132). -/

namespace Sys2Proof.Machine

/-- R131: `r = (y - x) mod 65536`; the destination cell `y` is the minuend, the cell named first, `x`, the subtrahend. -/
def difference (y x : Word) : Word := y - x

/-- R132: taken if and only if `r[15] == 1` or `r == 0x0000`. -/
def branchTaken (r : Word) : Bool := r.msb || r == 0

end Sys2Proof.Machine
end

