-- ==== Sys2Proof/Machine/Subleq.lean ====
section
/-! DEFINITION. The subtract-and-branch unit: SUBLEQ (42_subleq.md R130 to R136). -/

namespace Sys2Proof.Machine

/-- R130, after the fetch: advance; both reads; the unconditional store; `pc <- c`, the latched target, if the branch is taken. -/
def subleqEffect (a b c : Word) (m : MachineState) : MachineState :=
  let r := difference (m.operand b) (m.operand a)
  let stored := m.advance.storeOperand b r
  if branchTaken r then stored.setPc c else stored

/-- R130: SUBLEQ touches the machine alone, and never holds (R115). -/
def execSubleq (a b c : Word) (s : State) : Host.Outcome State Fault Refusal := .next (s.onMachine (subleqEffect a b c))

end Sys2Proof.Machine
end

