-- ==== Sys2Proof/Machine/Sequencer.lean ====
section
/-! DEFINITION. The instruction sequencer (40_sequencer.md): the fetch (R94), the spec's `Step` (R97), the instruction cycle with its halt test
(R93, R104), and the placing of an instruction where the next cycle fetches it. -/

namespace Sys2Proof.Machine

/-- R94: the three Words at `pc`, `pc +16 1`, `pc +16 2`, all read before anything is written. -/
def MachineState.fetch (m : MachineState) : Triple :=
  ⟨m.memRead m.pc, m.memRead (m.pc + 1), m.memRead (m.pc + 2)⟩

/-- R94 for the machine of a state. -/
@[simp] abbrev fetch (s : State) : Triple := s.machine.fetch

/-- R97 on the pair (pc, mem) alone, with what the channels do passed in (R20, R32): `v` is the Word that `ReadByte()` returns, if it is
called; the pair after the instruction, and the byte given to `WriteByte`, if it is called. -/
def machineStep (v : Word) (m : MachineState) : MachineState × Option Byte :=
  match decode m.fetch with
  | .input b _ => (inputEffect b v m, none)
  | .output a _ => (outputEffect m, some (outputByte a m))
  | .subleq a b c => (subleqEffect a b c m, none)

/-- R97: `Step`, one instruction from any state, without the halt test. The advance of R95 stands in each meaning, because a held
instruction has not advanced (R115). -/
def instructionStep (s : State) : Host.Outcome State Fault Refusal := exec (decode (fetch s)) s

/-- R92, R93, R104: one turn of the run loop: the halt test, and if the machine is running one `Step`. A halted machine does nothing at all
(R100), so its cycle is the identity (assumption 4). -/
def cycle (s : State) : Host.Outcome State Fault Refusal :=
  if s.halted then .next s else instructionStep s

/-- R115: whether the instruction at `pc` holds at this attempt: its channel has no answer yet. SUBLEQ never holds. -/
def State.holds (s : State) : Bool :=
  match decode (fetch s) with
  | .input _ _ => s.input.readByte.1.isNone
  | .output a _ => !(s.output.writeByte (outputByte a s.machine)).1
  | .subleq _ _ _ => false

/-- The state with a triple stored at the addresses the next cycle fetches from. A halted machine fetches nothing, so `pc` is first reset
(R91: the only way back to running). -/
def State.placeTriple (s : State) (t : Triple) : State :=
  let r := if s.halted then s.warmReset else s
  ((r.memWrite r.pc t.a).memWrite (r.pc + 1) t.b).memWrite (r.pc + 2) t.c

end Sys2Proof.Machine
end

