-- ==== Sys2Proof/Machine/Step.lean ====
section
/-! DEFINITION. The machine's step, which is the instruction cycle of 40_sequencer.md R104, and the host's way to place one instruction. -/

namespace Sys2Proof.Machine

/-- R90, R104: one instruction cycle. -/
def step (s : State) : Host.Outcome State Fault Refusal := cycle s

/-- `s` with the instruction whose value is `w` (numbered as opcode_table.json numbers it, R71) where `step` fetches next (assumption 6). -/
def State.withFetchWord (s : State) (nbits w : Nat) : State := s.placeTriple (tripleOfValue (w % 2 ^ nbits))

end Sys2Proof.Machine
end

