-- ==== Sys2Proof/Machine/HostOps.lean ====
section
/-! DEFINITION. The three operations of the host (70_reset_and_hazards.md R170): `Construct` (R171, R172), `Reset` (MachineState.warmReset, R173) and
`Run` (40_sequencer.md R92, R99, R103), with the attaching of channels to a run (41_io.md R110). -/

namespace Sys2Proof.Machine

/-- R171, R172: zero fill, copy of the image to the lowest addresses, `pc` = 0; an image of more than 65536 Words is refused. -/
def construct (image : List Word) : Host.Outcome MachineState Fault Refusal :=
  if h : image.length ≤ Config.memSize then
    .next { pc := Config.pcReset, mem := Memory.ofImage image h }
  else .refused .imageTooLong

/-- 41_io.md R110: the machine with the channels that one `Run` is given. -/
def MachineState.attach (m : MachineState) (input : InputChannel) (output : OutputChannel) : State := ⟨m, ⟨input, output⟩⟩

/-- 41_io.md R117: the assumption `INPUT_STREAM(s)` on a channel: it gives these bytes in order, then end of stream for ever, and no call holds
for ever; any listed attempt may hold before its answer comes (assumption 13). -/
def InputChannel.IsStream (ch : InputChannel) (bytes : List Byte) : Prop :=
  ch.tail = .ended ∧ ∃ n, ch.pending.filter (fun e => e != .notYet) =
    bytes.map (fun b => .answer (.byte b)) ++ List.replicate n (.answer .endOrFailure)

/-- One channel that meets `INPUT_STREAM(s)`, made for a run. DESIGN CHOICE (assumption 13): on it no call holds at all, which is narrower than
R117, where no call holds for ever. -/
def InputChannel.stream (bytes : List Byte) : InputChannel :=
  ⟨bytes.map (fun n => .answer (.byte n)), .ended, []⟩

/-- R99, R176: what the host gets back, once the halt test has succeeded. -/
def State.status (s : State) : Option Config.Status := if s.halted then some Config.statusSuccess else none

/-- R92: the run loop on the channels the state holds, for at most `fuel` steps: the status and the final state if the run has ended by then
(R103), `none` if it has not (R102). `step` always answers a next state. -/
def run : Nat → State → Option (Config.Status × State)
  | fuel, s =>
    match s.status with
    | some status => some (status, s)
    | none =>
      match fuel with
      | 0 => none
      | more + 1 =>
        match step s with
        | .next t => run more t
        | _ => none

/-- R92: `Run(input, output)` on the machine: the channels are passed in for this run alone (R32, 41_io.md R110). With the status comes what an
observer may see of the run (R103, R176): the final pair, the input consumed and the output. -/
def runWith (fuel : Nat) (input : InputChannel) (output : OutputChannel) (m : MachineState) : Option (Config.Status × State) :=
  run fuel (m.attach input output)

end Sys2Proof.Machine
end

