-- ==== Sys2Proof/Safety.lean ====
section
/-! DEFINITION. The terms that statements use: the invariant of the state, the spec's own machine over a total memory (10_state.md R20,
40_sequencer.md R97) with the view of a MachineState as one, and agreement up to cell 0xFFFF (20_memory.md R47). -/

namespace Sys2Proof.Safety

open Sys2Proof.Machine

/-- The invariant of State: cell 0xFFFF holds one of the 257 Words of `ReadByte()` (41_io.md R111), since no instruction but an IN writes it
(20_memory.md R47). The canonical form of memory needs no invariant, because the type of memory carries it. The spec puts no condition on
`pc` (R23, R44), and the channels are unconstrained (R117). -/
abbrev Inv (s : State) : Prop := (s.memRead 0xFFFF).toNat ≤ 255 ∨ s.memRead 0xFFFF = 0xFFFF

/-- R20: the architectural state as the spec writes it: `pc`, and `mem` as a total function. -/
structure Architectural where
  pc : Word
  mem : Word → Word

/-- R41: `MemWrite(addr, 1, v)` as function update. -/
def Architectural.memWrite (m : Architectural) (addr v : Word) : Architectural :=
  { m with mem := fun x => if x = addr then v else m.mem x }

/-- The spec's pair as the spec writes it, its memory a total function (R20). -/
def architectural (m : MachineState) : Architectural := ⟨m.pc, m.memRead⟩

/-- The pseudocode of R97 line by line: the state after it, and the byte given to `WriteByte` if there is one; `v` is what `ReadByte()`
returns, if it is called. -/
def pseudocode (v : Word) (m : Architectural) : Architectural × Option Byte :=
  let a := m.mem m.pc
  let b := m.mem (m.pc + 1)
  let c := m.mem (m.pc + 2)
  let m := { m with pc := m.pc + 3 }
  if a = 0xFFFF then (m.memWrite b v, none)
  else if b = 0xFFFF then (m, some ((m.mem a).extractLsb' 0 8))
  else
    let x := m.mem a
    let y := m.mem b
    let r := y - x
    let m := m.memWrite b r
    if r.getLsbD 15 = true ∨ r = 0 then ({ m with pc := c }, none) else (m, none)

/-- The two states have the same `pc`, the same channels, and the same Word in every cell but cell 0xFFFF. -/
def AgreeBelowTop (s t : State) : Prop :=
  s.pc = t.pc ∧ s.input = t.input ∧ s.output = t.output ∧ ∀ x : Word, x ≠ 0xFFFF → s.memRead x = t.memRead x

/-- `n` instruction cycles (R92, R104): the host's run of the machine. -/
def cycles (n : Nat) (s : State) : Host.Outcome State Fault Refusal := Sys2Proof.core.run n s

/-- What the next `k` attempts at `ReadByte()` on a channel give, in order (R111, R117). -/
def attempts : Nat → InputChannel → List (Option InputAnswer)
  | 0, _ => []
  | k + 1, ch => ch.readByte.1 :: attempts k ch.readByte.2

/-- The state in which the listed events of both channels hold no instruction any more (R115): every `notYet` is left out, and everything
else stays. -/
def withoutHolds (s : State) : State :=
  (s.setInput { s.input with pending := s.input.pending.filter (fun e => e != .notYet) }).setOutput
    { s.output with pending := s.output.pending.filter (fun e => e != .notYet) }

/-- The state in which every sink failure that is listed is a success (R112), and everything else stays. -/
def withoutSinkFailures (s : State) : State :=
  s.setOutput { s.output with pending := s.output.pending.map (fun e => if e = .failed then .taken else e) }

end Sys2Proof.Safety
end

