-- ==== Sys2Proof/Certificates/Slice0/Obligations.lean ====
section
/-! DEFINITION. The statements for the provers. In each, the next state's cells are named through `State.memRead`, one Word at a time, since
the Word is the unit of memory (20_memory.md R40). -/

open Sys2Proof Sys2Proof.Machine Sys2Proof.Safety

/-! ### Construction and reset -/

/-- 10_state.md R33. -/
def Obligations.ConstructLoadsImage : Prop :=
  ∀ image : List Word, image.length ≤ 65536 →
    ∃ m, construct image = .next m ∧ m.pc = 0 ∧ m.halted = false ∧
      (∀ i : Word, (h : i.toNat < image.length) → m.memRead i = image[i.toNat]) ∧
      (∀ i : Word, image.length ≤ i.toNat → m.memRead i = 0) ∧
      m.fetch = ⟨m.memRead 0, m.memRead 1, m.memRead 2⟩

/-- 70_reset_and_hazards.md R172. -/
def Obligations.ConstructRefusesLongImage : Prop :=
  ∀ image : List Word, 65536 < image.length → construct image = .refused .imageTooLong

/-- 70_reset_and_hazards.md R173, 10_state.md R34: on the machine, and that the channels beside it stay as they are. -/
def Obligations.WarmResetWritesPcOnly : Prop :=
  (∀ m : MachineState, m.warmReset.pc = 0 ∧ m.warmReset.mem = m.mem ∧ m.warmReset.halted = false ∧
    m.warmReset.fetch = ⟨m.memRead 0, m.memRead 1, m.memRead 2⟩ ∧ (m.pc = 0 → m.warmReset = m)) ∧
  ∀ s : State, s.warmReset.machine = s.machine.warmReset ∧ s.warmReset.input = s.input ∧ s.warmReset.output = s.output

/-- The model's choice (assumption 5): the machine of State.reset is what `Construct` of the empty image leaves. It meets the invariant, as every
machine constructed from an image that does not reach cell 0xFFFF does. -/
def Obligations.ResetStateIsEmptyConstruct : Prop :=
  construct [] = .next State.reset.machine ∧ State.reset.pc = 0 ∧ (∀ x : Word, State.reset.memRead x = 0) ∧
    State.reset.mem.cells = [] ∧ State.reset.halted = false ∧ Inv State.reset ∧
    ∀ (image : List Word) (m : MachineState) (e : Environment), image.length < 65536 → construct image = .next m → Inv ⟨m, e⟩

/-! ### Memory -/

/-- 10_state.md R20: two machines, whatever they are, are equal exactly when their `pc` values are equal and their memories agree at every
address. No channel enters: channels are no part of a machine (R32). -/
def Obligations.StatesEqualWhenCellsEqual : Prop :=
  (∀ m m' : MachineState, m = m' ↔ m.pc = m'.pc ∧ ∀ x : Word, m.memRead x = m'.memRead x) ∧
  ∀ s t : State, s = t ↔ (s.pc = t.pc ∧ ∀ x : Word, s.memRead x = t.memRead x) ∧ s.input = t.input ∧ s.output = t.output

/-- 10_state.md R20: the model's machines and the rule's pairs of a `pc` and a total memory are one to one. -/
def Obligations.MachinesAreTheSpecsPairs : Prop :=
  ∀ p : Architectural, ∃ m : MachineState, architectural m = p ∧ ∀ m' : MachineState, architectural m' = p → m' = m

/-- 10_state.md R20, R30, 20_memory.md R41, for the model's listing (assumption 1): every memory lists exactly its cells that are not zero,
each once, in rising order. -/
def Obligations.MemoryListsExactlyTheNonzeroCells : Prop :=
  ∀ m : Memory, List.Pairwise (fun p q => p.1 < q.1) m.cells ∧
    ∀ (n : Nat) (v : Word), (n, v) ∈ m.cells ↔ n < 65536 ∧ v ≠ 0 ∧ m.read (BitVec.ofNat 16 n) = v

/-- 20_memory.md R41 on whole states: the last write to a cell wins, writes to two cells commute, and rewriting a cell's own Word changes
nothing. -/
def Obligations.WritesOverwriteAndCommute : Prop :=
  ∀ (s : State) (a b v w : Word),
    (s.memWrite a v).memWrite a w = s.memWrite a w ∧
    (a ≠ b → (s.memWrite a v).memWrite b w = (s.memWrite b w).memWrite a v) ∧
    s.memWrite a (s.memRead a) = s

/-! ### Encoding -/

/-- Every operand of every form at every value its encoding admits (30_encoding.md R73, R78). -/
def Obligations.DecodeEncodeRoundTrip : Prop :=
  ∀ i : Instr, i.WellFormed = true → decode (encode i) = i ∧ decodeTableWord 48 (encode i).value.toNat = some i

/-- 30_encoding.md R75: every triple is a legal instruction of its own form. That encoding it gives the triple back, with no bit lost, is the
model's form: IN and OUT keep the field `c` that R75 has them ignore (assumption 10). -/
def Obligations.EveryTripleIsLegal : Prop :=
  ∀ t : Triple, (decode t).WellFormed = true ∧ encode (decode t) = t ∧
    ∀ u : Triple, decode t = decode u → t = u

/-- 30_encoding.md R73: the priority rule, and the opcode table's masks and matches in priority order. -/
def Obligations.DecoderFollowsPriority : Prop :=
  ∀ t : Triple,
    (t.a = 0xFFFF → decode t = .input t.b t.c) ∧
    (t.a ≠ 0xFFFF → t.b = 0xFFFF → decode t = .output t.a t.c) ∧
    (t.a ≠ 0xFFFF → t.b ≠ 0xFFFF → decode t = .subleq t.a t.b t.c) ∧
    (selectRow t.value).map (fun row => row.mnemonic) = some (decode t).mnemonic ∧
    (t.value &&& 0xFFFF00000000 = 0xFFFF00000000 ∧ t.value &&& 0x0000FFFF0000 = 0x0000FFFF0000 ↔
      t.a = 0xFFFF ∧ t.b = 0xFFFF)

/-- 30_encoding.md R71. -/
def Obligations.InstructionValueFields : Prop :=
  ∀ t : Triple,
    t.value.toNat = t.a.toNat * 2 ^ 32 + t.b.toNat * 2 ^ 16 + t.c.toNat ∧
    t.value.extractLsb 47 32 = t.a ∧ t.value.extractLsb 31 16 = t.b ∧ t.value.extractLsb 15 0 = t.c ∧
    tripleOfValue t.value.toNat = t

/-- 30_encoding.md R74. -/
def Obligations.EncodingCountsPerForm : Prop :=
  Nat.card { t : Triple // (decode t).mnemonic = "IN" } = 2 ^ 32 ∧
  Nat.card { t : Triple // (decode t).mnemonic = "OUT" } = (2 ^ 16 - 1) * 2 ^ 16 ∧
  Nat.card { t : Triple // (decode t).mnemonic = "SUBLEQ" } = (2 ^ 16 - 1) ^ 2 * 2 ^ 16 ∧
  Nat.card Triple = 2 ^ 48

/-- Triples of 95_test_vectors.md V5; and the triples of the worked examples of 41_io.md R113 and R114 and of 42_subleq.md R130, written as
instruction values, numbered as opcode_table.json numbers them. -/
def Obligations.DecodeSampleTriples : Prop :=
  decode ⟨0xFFFF, 0xFFFF, 0xFFFF⟩ = .input 0xFFFF 0xFFFF ∧
  decode ⟨0xFFFF, 0x1234, 0xFFFF⟩ = .input 0x1234 0xFFFF ∧
  decode ⟨0xFFFE, 0xFFFF, 0xFFFF⟩ = .output 0xFFFE 0xFFFF ∧
  decode ⟨0xFFFE, 0xFFFE, 0x0000⟩ = .subleq 0xFFFE 0xFFFE 0 ∧
  decode ⟨0x00FF, 0x00FF, 0x0000⟩ = .subleq 0x00FF 0x00FF 0 ∧
  decodeTableWord 48 0xFFFF00400000 = some (.input 0x0040 0x0000) ∧
  decodeTableWord 48 0x0050FFFF1234 = some (.output 0x0050 0x1234) ∧
  decodeTableWord 48 0x001300120003 = some (.subleq 0x0013 0x0012 0x0003)

/-! ### The three instructions -/

/-- 42_subleq.md R130: encoding, result, branch, and frame; it completes in every state, for every operand that SUBLEQ can have. -/
def Obligations.SubleqResult : Prop :=
  ∀ (a b c : Word) (s : State), a ≠ 0xFFFF → b ≠ 0xFFFF →
    decode ⟨a, b, c⟩ = .subleq a b c ∧
    ∃ t, exec (.subleq a b c) s = .next t ∧
      let r := BitVec.ofNat 16 ((s.memRead b).toNat + 65536 - (s.memRead a).toNat)
      t.memRead b = r ∧
      (∀ x : Word, x ≠ b → t.memRead x = s.memRead x) ∧
      (r.getLsbD 15 = true ∨ r = 0 → t.pc = c) ∧
      (¬(r.getLsbD 15 = true ∨ r = 0) → t.pc = BitVec.ofNat 16 (s.pc.toNat + 3)) ∧
      t.input = s.input ∧ t.output = s.output

/-- 41_io.md R113: encoding; when `ReadByte()` answers `v`, IN stores its Word whole, advances, ignores `c`, and leaves every other cell and
the output as they were; exactly that answer is consumed. -/
def Obligations.InputResult : Prop :=
  ∀ (b c : Word) (s : State),
    decode ⟨0xFFFF, b, c⟩ = .input b c ∧
    ∀ v : InputAnswer, s.input.readByte.1 = some v →
      ∃ t, exec (.input b c) s = .next t ∧
        (v = .endOrFailure → t.memRead b = 0xFFFF) ∧
        (∀ n : Byte, v = .byte n → (t.memRead b).toNat = n.toNat) ∧
        (∀ x : Word, x ≠ b → t.memRead x = s.memRead x) ∧
        t.pc = BitVec.ofNat 16 (s.pc.toNat + 3) ∧
        t.input.consumed = s.input.consumed ++ [v] ∧ t.output = s.output

/-- The model's form (assumptions 2 and 4) of an attempt at `ReadByte()`: it is a next state whether or not the channel answers, the input
channel is afterwards the one `readByte` leaves, and under a hold (41_io.md R115) nothing else has changed. -/
def Obligations.InputAttemptIsAStep : Prop :=
  ∀ (b c : Word) (s : State),
    ∃ t, exec (.input b c) s = .next t ∧ t.input = s.input.readByte.2 ∧ t.output = s.output ∧
      (s.input.readByte.1 = none → t.machine = s.machine ∧ t.input.consumed = s.input.consumed)

/-- 41_io.md R114: encoding; when the sink ends the transaction, OUT has presented the low byte of its cell, advances, ignores `c`, and leaves
memory and the input as they were. -/
def Obligations.OutputResult : Prop :=
  ∀ (a c : Word) (s : State), a ≠ 0xFFFF →
    decode ⟨a, 0xFFFF, c⟩ = .output a c ∧
    ((∀ v : Byte, (s.output.writeByte v).1 = true) →
      ∃ t, exec (.output a c) s = .next t ∧
        t.output.presented = s.output.presented ++ [BitVec.ofNat 8 ((s.memRead a).toNat % 256)] ∧
        t.pc = BitVec.ofNat 16 (s.pc.toNat + 3) ∧ t.mem = s.mem ∧ t.input = s.input)

/-- The model's form (assumptions 3 and 4) of an attempt at `WriteByte`: it is a next state whether or not the sink ends the transaction, the
output channel is afterwards the one `writeByte` leaves, and under a hold (41_io.md R115) nothing else has changed. -/
def Obligations.OutputAttemptIsAStep : Prop :=
  ∀ (a c : Word) (s : State), a ≠ 0xFFFF →
    ∃ t, exec (.output a c) s = .next t ∧ t.output = (s.output.writeByte ((s.memRead a).extractLsb' 0 8)).2 ∧ t.input = s.input ∧
      ((∀ v : Byte, (s.output.writeByte v).1 = false) → t.machine = s.machine ∧ t.output.presented = s.output.presented)

/-- 30_encoding.md R75: in every triple that decodes to IN or OUT, field `c` is ignored: any other `c` gives the same outcome. -/
def Obligations.InputAndOutputIgnoreC : Prop :=
  ∀ (a b c c' : Word) (s : State), a = 0xFFFF ∨ b = 0xFFFF →
    exec (decode ⟨a, b, c⟩) s = exec (decode ⟨a, b, c'⟩) s

/-! ### The channels -/

/-- 41_io.md R111, R115, R117 on the model's input channel (assumption 2), event by event: an answer listed, a hold listed, and after these a free
answer, the sticky end of stream, or silence. -/
def Obligations.ReadByteFollowsTheSource : Prop :=
  ∀ (ch : InputChannel) (rest : List InputEvent) (v : InputAnswer),
    (ch.pending = .answer v :: rest → ch.readByte = (some v, ⟨rest, ch.tail, ch.consumed ++ [v]⟩)) ∧
    (ch.pending = .notYet :: rest → ch.readByte = (none, ⟨rest, ch.tail, ch.consumed⟩)) ∧
    (ch.pending = [] → ch.tail = .free → ∃ w, ch.readByte = (some w, ⟨[], .free, ch.consumed ++ [w]⟩)) ∧
    (ch.pending = [] → ch.tail = .ended → ch.readByte = (some .endOrFailure, ⟨[], .ended, ch.consumed ++ [.endOrFailure]⟩)) ∧
    (ch.pending = [] → ch.tail = .silent → ch.readByte = (none, ch))

/-- 41_io.md R112, R115 on the model's output channel (assumption 3), event by event. -/
def Obligations.WriteByteFollowsTheSink : Prop :=
  ∀ (ch : OutputChannel) (rest : List OutputEvent) (v : Byte),
    (ch.pending = .taken :: rest ∨ ch.pending = .failed :: rest →
      ch.writeByte v = (true, ⟨rest, ch.tail, ch.presented ++ [v]⟩)) ∧
    (ch.pending = .notYet :: rest → ch.writeByte v = (false, ⟨rest, ch.tail, ch.presented⟩)) ∧
    (ch.pending = [] → ch.tail = .ready → ch.writeByte v = (true, ⟨[], .ready, ch.presented ++ [v]⟩)) ∧
    (ch.pending = [] → ch.tail = .silent → ch.writeByte v = (false, ch))

/-- 41_io.md R112: whether the sink takes a byte or fails makes no difference to any number of cycles: not to pc, memory, the input or the bytes
presented. -/
def Obligations.SinkFailuresAreInvisible : Prop :=
  ∀ (n : Nat) (s t : State), cycles n s = .next t → cycles n (withoutSinkFailures s) = .next (withoutSinkFailures t)

/-- 41_io.md R111: the 257 Words `ReadByte()` returns, without sign extension and without confusion of the byte 0xFF and the sentinel. -/
def Obligations.ReadByteReturns257Words : Prop :=
  (∀ v : InputAnswer, (inputWord v).toNat ≤ 255 ∨ inputWord v = 0xFFFF) ∧
  (∀ n : Byte, (inputWord (.byte n)).toNat = n.toNat) ∧
  inputWord .endOrFailure = 0xFFFF ∧
  (∀ w : Word, w.toNat ≤ 255 ∨ w = 0xFFFF → ∃ v, inputWord v = w) ∧
  (∀ v v' : InputAnswer, inputWord v = inputWord v' → v = v')

/-- 41_io.md R117, the named assumption `INPUT_STREAM(s)`, on the channel the model makes for it: the bytes in order, then end of stream for ever.
That no attempt on it holds is the model's choice (assumption 13), narrower than R117. -/
def Obligations.InputStreamAnswersInOrder : Prop :=
  ∀ (bytes : List Byte) (k i : Nat), i < k →
    (∀ n : Byte, bytes[i]? = some n → (attempts k (InputChannel.stream bytes))[i]? = some (some (.byte n))) ∧
    (bytes.length ≤ i → (attempts k (InputChannel.stream bytes))[i]? = some (some .endOrFailure))

/-- 41_io.md R117, the named assumption `INPUT_STREAM(s)`, with holds: on every channel that meets it, however often its attempts hold, the
answers are the bytes in order and then end of stream, and no call holds for ever. The channel of `InputChannel.stream`, on which none
holds, is the model's choice (assumption 13) and meets it. -/
def Obligations.InputStreamWithHolds : Prop :=
  ∀ bytes : List Byte, (InputChannel.stream bytes).IsStream bytes ∧
    ∀ ch : InputChannel, ch.IsStream bytes →
      (∀ (k i : Nat) (v : InputAnswer), ((attempts k ch).filterMap id)[i]? = some v →
        (∀ n : Byte, bytes[i]? = some n → v = .byte n) ∧ (bytes.length ≤ i → v = .endOrFailure)) ∧
      ∀ j : Nat, ∃ k, j ≤ ((attempts k ch).filterMap id).length

/-- 41_io.md R110, R118, 20_memory.md R55: a cycle makes at most one transaction, an IN on the input and an OUT on the output, and what was
consumed and presented before stays as it was. -/
def Obligations.OneTransactionPerCycle : Prop :=
  ∀ s t : State, step s = .next t →
    (t.input.consumed = s.input.consumed ∧ t.output.presented = s.output.presented) ∨
    (∃ b c v, decode (fetch s) = .input b c ∧ t.memRead b = inputWord v ∧
      t.input.consumed = s.input.consumed ++ [v] ∧ t.output = s.output) ∨
    (∃ a c, decode (fetch s) = .output a c ∧
      t.output.presented = s.output.presented ++ [(s.memRead a).extractLsb' 0 8] ∧ t.input = s.input)

/-- 41_io.md R115: a hold of any length on IN or OUT ends as if there had been none, whether the sink then takes the byte or fails. That a hold
is a list of events and each held attempt a cycle, `n + 1` cycles in all, is the model's form (assumptions 2, 3 and 4): in R115 a held
instruction has no step. -/
def Obligations.HeldInstructionIsRetried : Prop :=
  ∀ (s : State) (n : Nat), s.halted = false →
    (∀ b c v rest, decode (fetch s) = .input b c →
      cycles (n + 1) (s.setInput { s.input with pending := List.replicate n .notYet ++ .answer v :: rest }) =
        step (s.setInput { s.input with pending := .answer v :: rest })) ∧
    (∀ a c ev rest, decode (fetch s) = .output a c → ev = .taken ∨ ev = .failed →
      cycles (n + 1) (s.setOutput { s.output with pending := List.replicate n .notYet ++ ev :: rest }) =
        step (s.setOutput { s.output with pending := ev :: rest }))

/-- 41_io.md R115, 40_sequencer.md R103: on a channel that never answers the run never ends. That each attempt is a step, which answers the
same state, and that never answering is the silent tail of a channel, is the model's form (assumptions 2, 3 and 4). -/
def Obligations.SilentChannelHoldsForever : Prop :=
  ∀ s : State, s.halted = false →
    ((∃ b c, decode (fetch s) = .input b c) ∧ s.input.pending = [] ∧ s.input.tail = .silent) ∨
    ((∃ a c, decode (fetch s) = .output a c) ∧ s.output.pending = [] ∧ s.output.tail = .silent) →
    step s = .next s ∧ ∀ fuel, run fuel s = none

/-- 41_io.md R115, R118: holds change nothing but the number of attempts: what a state reaches, the same state without holds in its lists
reaches too, in no more steps. Holds as listed events, and held attempts as cycles, are the model's form (assumptions 2, 3 and 4). -/
def Obligations.HoldsDoNotChangeResults : Prop :=
  ∀ (n : Nat) (s t : State), cycles n s = .next t →
    ∃ m, m ≤ n ∧ cycles m (withoutHolds s) = .next (withoutHolds t)

/-- 41_io.md R110, 40_sequencer.md R103: a run is made on exactly the channels it is given, and on the machine as it is; its transactions are
added to what these channels have given and taken before; and once it has returned, a further run on the machine it leaves, whatever channels
that run is given, returns at once with those channels untouched. -/
def Obligations.ChannelsAreAttachedForOneRun : Prop :=
  ∀ (fuel : Nat) (i : InputChannel) (o : OutputChannel) (m : MachineState) (status : Config.Status) (t : State),
    runWith fuel i o m = some (status, t) →
    (∃ k s, k ≤ fuel ∧ s.machine = m ∧ s.input = i ∧ s.output = o ∧ cycles k s = .next t) ∧
    i.consumed <+: t.input.consumed ∧ o.presented <+: t.output.presented ∧
    ∀ (fuel' : Nat) (i' : InputChannel) (o' : OutputChannel), ∃ t', runWith fuel' i' o' t.machine = some (status, t') ∧
      t'.machine = t.machine ∧ t'.input = i' ∧ t'.output = o'

/-- 10_state.md R32 (b), (c), 41_io.md R117: on the pair (pc, mem) the spec's `Step` is `machineStep`, which is passed the one Word that
`ReadByte()` returns, if it is called, and gives the one byte for `WriteByte`, if it is called. A hold as a next state is assumption 4. -/
def Obligations.ChannelsArePassedIn : Prop :=
  ∀ s : State, ∃ t, instructionStep s = .next t ∧
    (s.holds = true → t.machine = s.machine) ∧
    (s.holds = false → ∀ v : Word, ((fetch s).a = 0xFFFF → s.input.readByte.1.map inputWord = some v) →
      t.machine = (machineStep v s.machine).1 ∧
      t.output.presented = s.output.presented ++ (machineStep v s.machine).2.toList)

/-- 10_state.md R32 (b), (c), 41_io.md R117, R118: a machine does not know its channels apart: with the same answer for an IN, and no hold, the
same machine between any two environments becomes the same machine and presents the same bytes. -/
def Obligations.OnlyTheAnswerReachesTheMachine : Prop :=
  ∀ s s' t t' : State, s.machine = s'.machine → s.holds = false → s'.holds = false →
    ((fetch s).a = 0xFFFF → s.input.readByte.1.map inputWord = s'.input.readByte.1.map inputWord) →
    instructionStep s = .next t → instructionStep s' = .next t' →
    t.machine = t'.machine ∧
      ∃ bytes, t.output.presented = s.output.presented ++ bytes ∧ t'.output.presented = s'.output.presented ++ bytes

/-! ### Arithmetic and the branch test -/

/-- 42_subleq.md R131. -/
def Obligations.DifferenceWrapsBothReadings : Prop :=
  ∀ y x : Word,
    (difference y x).toNat = (y.toNat + 65536 - x.toNat) % 65536 ∧
    difference y x = BitVec.ofInt 16 ((y.toNat : Int) - x.toNat) ∧
    difference y x = BitVec.ofInt 16 (y.toInt - x.toInt) ∧
    difference x x = 0 ∧ difference y 0 = y

/-- 42_subleq.md R132. -/
def Obligations.BranchTestReadsTopBitOrZero : Prop :=
  (∀ r : Word, (branchTaken r = true ↔ r.getLsbD 15 = true ∨ r = 0) ∧
    (branchTaken r = false ↔ 0x0001 ≤ r.toNat ∧ r.toNat ≤ 0x7FFF)) ∧
  Nat.card { r : Word // branchTaken r = true } = 32769 ∧
  Nat.card { r : Word // branchTaken r = false } = 32767

/-- 42_subleq.md R133: the test is `signed(r) ≤ 0`, and where that is not `signed(y) ≤ signed(x)`. -/
def Obligations.BranchTestAgainstSignedOrder : Prop :=
  ∀ y x : Word,
    let r := difference y x
    let d := y.toInt - x.toInt
    (branchTaken r = true ↔ r.toInt ≤ 0) ∧
    (-32768 ≤ d → d ≤ 32767 → r.toInt = d ∧ (branchTaken r = true ↔ y.toInt ≤ x.toInt)) ∧
    (32767 < d → r.toInt = d - 65536 ∧ branchTaken r = true) ∧
    (d < -32768 → r.toInt = d + 65536 ∧ branchTaken r = false) ∧
    (r = 0 ↔ x = y) ∧
    (x ≠ y → (branchTaken r = true ↔ 32768 ≤ (y.toNat + 65536 - x.toNat) % 65536))

/-- 30_encoding.md R79: the six pseudo-instructions, at the address in `pc`, on cells other than cell 0xFFFF. -/
def Obligations.PseudoInstructionEffects : Prop :=
  ∀ (s : State) (z a b c : Word), z ≠ 0xFFFF → a ≠ 0xFFFF → b ≠ 0xFFFF →
    (∃ t, exec (Pseudo.clr a c) s = .next t ∧ t.pc = c ∧ t.memRead a = 0 ∧
      ∀ x, x ≠ a → t.memRead x = s.memRead x) ∧
    (∃ t, exec (Pseudo.sub a b s.pc) s = .next t ∧ t.pc = s.pc + 3 ∧ t.memRead b = s.memRead b - s.memRead a ∧
      ∀ x, x ≠ b → t.memRead x = s.memRead x) ∧
    (s.memRead z = 0 →
      (∃ t, exec (Pseudo.jmp z c) s = .next t ∧ t.pc = c ∧ ∀ x, t.memRead x = s.memRead x) ∧
      (∃ t, exec (Pseudo.halt z) s = .next t ∧ t.pc = 0x8000 ∧ t.halted = true ∧ ∀ x, t.memRead x = s.memRead x) ∧
      (∃ t, exec (Pseudo.nop z s.pc) s = .next t ∧ t.pc = s.pc + 3 ∧ ∀ x, t.memRead x = s.memRead x) ∧
      (∃ t, exec (Pseudo.blez z b c) s = .next t ∧ (∀ x, t.memRead x = s.memRead x) ∧
        (s.memRead b = 0 ∨ (s.memRead b).msb = true → t.pc = c) ∧
        (¬(s.memRead b = 0 ∨ (s.memRead b).msb = true) → t.pc = s.pc + 3))) ∧
    (Pseudo.clr a c).WellFormed = true ∧ (Pseudo.jmp z c).WellFormed = true ∧ (Pseudo.halt z).WellFormed = true ∧
    (Pseudo.sub a b s.pc).WellFormed = true ∧ (Pseudo.nop z s.pc).WellFormed = true ∧
    (Pseudo.blez z b c).WellFormed = true

/-! ### The sequencer -/

/-- 40_sequencer.md R92, R93, R97: a running machine's step is exec of the instruction its fetched Words decode to, and `Step` is that in
every state. Nothing is added around exec: the advance stands in each meaning. -/
def Obligations.StepRunsDecodedInstruction : Prop :=
  ∀ (s : State) (i : Instr), decode (fetch s) = i →
    instructionStep s = exec i s ∧ (s.halted = false → step s = exec i s)

/-- 40_sequencer.md R94: the fetch addresses wrap modulo 65536. -/
def Obligations.FetchReadsThreeWords : Prop :=
  ∀ s : State,
    (fetch s).a = s.memRead s.pc ∧
    (fetch s).b = s.memRead (BitVec.ofNat 16 ((s.pc.toNat + 1) % 65536)) ∧
    (fetch s).c = s.memRead (BitVec.ofNat 16 ((s.pc.toNat + 2) % 65536)) ∧
    (s.pc = 0xFFFE → fetch s = ⟨s.memRead 0xFFFE, s.memRead 0xFFFF, s.memRead 0x0000⟩) ∧
    (s.pc = 0xFFFF → fetch s = ⟨s.memRead 0xFFFF, s.memRead 0x0000, s.memRead 0x0001⟩)

/-- 40_sequencer.md R91, R93: the halt test reads `pc[15]` alone, and a halted machine's cycle does nothing (that it is a next state is the
model's form, assumption 4). -/
def Obligations.HaltedMachineDoesNothing : Prop :=
  ∀ s : State, (s.halted = true ↔ 0x8000 ≤ s.pc.toNat) ∧ (s.halted = true → step s = .next s)

/-- 40_sequencer.md R100, 70_reset_and_hazards.md R174: a run on a halted machine returns at once with everything as it was, and every run that
follows a run that ended, without a reset between them, is of this kind. -/
def Obligations.RunOnHaltedMachineReturnsAtOnce : Prop :=
  (∀ (s : State), s.pc.getLsbD 15 = true → ∀ fuel, run fuel s = some (Config.statusSuccess, s)) ∧
  (∀ (fuel fuel' : Nat) (s t : State) (status : Config.Status),
    run fuel s = some (status, t) → run fuel' t = some (status, t))

/-- 40_sequencer.md R92, R99, R103: a run ends exactly at the first halted state, and returns the one status. -/
def Obligations.RunEndsAtFirstHaltedState : Prop :=
  ∀ (fuel : Nat) (s t : State) (status : Config.Status),
    run fuel s = some (status, t) ↔
      status = Config.statusSuccess ∧ t.halted = true ∧
        ∃ k, k ≤ fuel ∧ cycles k s = .next t ∧
          ∀ j, j < k → ∀ u, cycles j s = .next u → u.halted = false

/-- 40_sequencer.md R101: the two ways a running machine becomes halted, and that each of them halts it. -/
def Obligations.HaltingHappensInTwoWays : Prop :=
  ∀ s t : State, s.halted = false → step s = .next t →
    (t.halted = true →
      s.holds = false ∧
      ((∃ a b c, decode (fetch s) = .subleq a b c ∧ branchTaken (s.memRead b - s.memRead a) = true ∧
        0x8000 ≤ c.toNat ∧ t.pc = c) ∨
      ((s.pc = 0x7FFD ∧ t.pc = 0x8000 ∨ s.pc = 0x7FFE ∧ t.pc = 0x8001 ∨ s.pc = 0x7FFF ∧ t.pc = 0x8002) ∧
        ∀ a b c, decode (fetch s) = .subleq a b c → branchTaken (s.memRead b - s.memRead a) = false))) ∧
    (∀ a b c, decode (fetch s) = .subleq a b c → branchTaken (s.memRead b - s.memRead a) = true → 0x8000 ≤ c.toNat →
      t.pc = c ∧ t.halted = true) ∧
    (s.holds = false →
      (∀ a b c, decode (fetch s) = .subleq a b c → branchTaken (s.memRead b - s.memRead a) = false) →
      (s.pc = 0x7FFD → t.pc = 0x8000 ∧ t.halted = true) ∧ (s.pc = 0x7FFE → t.pc = 0x8001 ∧ t.halted = true) ∧
        (s.pc = 0x7FFF → t.pc = 0x8002 ∧ t.halted = true))

/-- 40_sequencer.md R98: no address wraps under `Run`; the advance wraps exactly from 0xFFFD up; the fetch reaches two cells into the upper
half. -/
def Obligations.FetchReachUnderRun : Prop :=
  ∀ s : State,
    (s.halted = false →
      (s.pc + 1).toNat = s.pc.toNat + 1 ∧ (s.pc + 2).toNat = s.pc.toNat + 2 ∧ (s.pc + 2).toNat ≤ 0x8001 ∧
      s.machine.advance.pc.toNat = s.pc.toNat + 3 ∧ 0x0003 ≤ s.machine.advance.pc.toNat ∧ s.machine.advance.pc.toNat ≤ 0x8002) ∧
    (s.machine.advance.pc.toNat < s.pc.toNat ↔ 0xFFFD ≤ s.pc.toNat) ∧
    (s.pc = 0x7FFE → (fetch s).c = s.memRead 0x8000) ∧
    (s.pc = 0x7FFF → (fetch s).b = s.memRead 0x8000 ∧ (fetch s).c = s.memRead 0x8001)

/-- 10_state.md R25, 40_sequencer.md R95, 42_subleq.md R135: an instruction that does not hold sets `pc` by the advance or by a taken branch to
the fetched `c` (which may be its own address); one that holds leaves `pc` as it was (41_io.md R115; a hold as a next state is
assumption 4). -/
def Obligations.PcMovesOnlyByAdvanceOrBranch : Prop :=
  ∀ s t : State, instructionStep s = .next t →
    (s.holds = true → t.pc = s.pc) ∧
    (s.holds = false →
      (∀ a b c, decode (fetch s) = .subleq a b c → branchTaken (s.memRead b - s.memRead a) = true → t.pc = c) ∧
      ((∀ a b c, decode (fetch s) = .subleq a b c → branchTaken (s.memRead b - s.memRead a) = false) →
        t.pc = BitVec.ofNat 16 ((s.pc.toNat + 3) % 65536)))

/-- 20_memory.md R53: a later fetch reads what an instruction stored, beginning with the very next one. -/
def Obligations.NextFetchSeesTheStore : Prop :=
  ∀ s t : State, step s = .next t → s.halted = false → s.holds = false →
    ∀ b w : Word,
      ((∃ a c, decode (fetch s) = .subleq a b c) ∧ w = s.memRead b - s.memRead (fetch s).a) ∨
        (∃ c v, decode (fetch s) = .input b c ∧ s.input.readByte.1 = some v ∧ w = inputWord v) →
      (t.pc = b → (fetch t).a = w) ∧ (t.pc + 1 = b → (fetch t).b = w) ∧ (t.pc + 2 = b → (fetch t).c = w)

/-- 10_state.md R29, 42_subleq.md R136 (2), (3), 41_io.md R113 (2), R114 (2): operands in the instruction's own cells. A subtrahend, a minuend
or an output byte from an own cell is the field as fetched; a store into an own cell leaves the present execution with the fields it
fetched, and a later fetch from the same address sees what was stored. -/
def Obligations.OwnFieldsAreLatched : Prop :=
  ∀ s : State, s.halted = false →
    (∀ a b c, decode (fetch s) = .subleq a b c →
      (a = s.pc → s.memRead a = a) ∧ (a = s.pc + 1 → s.memRead a = b) ∧ (a = s.pc + 2 → s.memRead a = c) ∧
      ∀ y : Word, (b = s.pc ∧ y = a ∨ b = s.pc + 1 ∧ y = b ∨ b = s.pc + 2 ∧ y = c) →
        ∃ t, step s = .next t ∧ t.memRead b = y - s.memRead a ∧ (∀ x, x ≠ b → t.memRead x = s.memRead x) ∧
          t.pc = (if branchTaken (y - s.memRead a) then c else s.pc + 3) ∧
          (t.pc = s.pc → fetch t = ⟨if b = s.pc then y - s.memRead a else a, if b = s.pc + 1 then y - s.memRead a else b,
            if b = s.pc + 2 then y - s.memRead a else c⟩)) ∧
    (∀ b c v, decode (fetch s) = .input b c → s.input.readByte.1 = some v → b = s.pc ∨ b = s.pc + 1 ∨ b = s.pc + 2 →
      ∃ t, step s = .next t ∧ t.memRead b = inputWord v ∧ (∀ x, x ≠ b → t.memRead x = s.memRead x) ∧ t.pc = s.pc + 3) ∧
    (∀ a c v, decode (fetch s) = .output a c → (s.output.writeByte v).1 = true →
      (a = s.pc ∧ v = a.extractLsb' 0 8 ∨ a = s.pc + 1 ∧ v = 0xFF ∨ a = s.pc + 2 ∧ v = c.extractLsb' 0 8) →
      ∃ t, step s = .next t ∧ t.output.presented = s.output.presented ++ [v] ∧ t.mem = s.mem ∧ t.pc = s.pc + 3)

/-- 40_sequencer.md R102, 42_subleq.md R136 (4): zeroed memory at address 0 loops for ever. -/
def Obligations.ZeroedMemoryHangs : Prop :=
  ∀ s : State, s.pc = 0 → (∀ x : Word, s.memRead x = 0) → step s = .next s ∧ ∀ fuel, run fuel s = none

/-- The host's placing of one instruction (assumption 6): the very next step runs it, and no other cell has changed. -/
def Obligations.PlacedInstructionRunsNext : Prop :=
  ∀ (s : State) (t : Triple),
    step (s.withFetchWord 48 t.value.toNat) = exec (decode t) (s.withFetchWord 48 t.value.toNat) ∧
    (s.halted = false → ∀ x : Word, x ≠ s.pc → x ≠ s.pc + 1 → x ≠ s.pc + 2 →
      (s.withFetchWord 48 t.value.toNat).memRead x = s.memRead x)

/-! ### The whole machine -/

/-- 40_sequencer.md R97, 60_exceptions.md R150: no state ends in a fault or a refusal. That a halted state and a held instruction have a next
state too (assumption 4), and that exec of a term no triple decodes to has one (assumption 10), is the model's form. -/
def Obligations.EveryStateHasANextState : Prop :=
  (∀ s : State, ∃ t, step s = .next t) ∧ (∀ s : State, ∃ t, instructionStep s = .next t) ∧
    ∀ (i : Instr) (s : State), ∃ t, exec i s = .next t

/-- 20_memory.md R47, 41_io.md R111: cell 0xFFFF keeps holding one of the 257 Words of `ReadByte()`: every step, gated or not, leaves it so,
from every state in which it is so. -/
def Obligations.StepKeepsInputWordInTopCell : Prop :=
  ∀ s t : State, Inv s → (step s = .next t → Inv t) ∧ (instructionStep s = .next t → Inv t)

/-- 40_sequencer.md R97: the model's `Step` against the spec's pseudocode over a total memory: unless the instruction holds, the next state
is the pseudocode's, with the one byte it presents and the one answer it reads; under a hold pc, mem, the answers and the bytes stay. R97's
second outcome, the hold, answers a next state here: that is the model's form (assumption 4). -/
def Obligations.StepRefinesPseudocode : Prop :=
  ∀ s : State, ∃ t, instructionStep s = .next t ∧
    (s.holds = true → architectural t.machine = architectural s.machine ∧ t.input.consumed = s.input.consumed ∧
      t.output.presented = s.output.presented) ∧
    (s.holds = false → ∃ v : InputAnswer,
      architectural t.machine = (pseudocode (inputWord v) (architectural s.machine)).1 ∧
      t.output.presented = s.output.presented ++ (pseudocode (inputWord v) (architectural s.machine)).2.toList ∧
      (if (fetch s).a = 0xFFFF then s.input.readByte.1 = some v ∧ t.input.consumed = s.input.consumed ++ [v]
        else t.input = s.input))

/-- 20_memory.md R45, R50: an instruction writes no cell but the one its field `b` names, and OUT writes none. -/
def Obligations.StepWritesOnlyTheNamedCell : Prop :=
  ∀ (s t : State) (x : Word), step s = .next t → t.memRead x ≠ s.memRead x →
    x = (fetch s).b ∧ ((∃ c, decode (fetch s) = .input x c) ∨ (∃ a c, decode (fetch s) = .subleq a x c))

/-- 20_memory.md R47 (a), (c): only IN with both sentinels writes cell 0xFFFF. -/
def Obligations.TopCellWrittenOnlyByInput : Prop :=
  ∀ s t : State, step s = .next t → t.memRead 0xFFFF ≠ s.memRead 0xFFFF →
    s.halted = false ∧ s.holds = false ∧ (fetch s).a = 0xFFFF ∧ (fetch s).b = 0xFFFF ∧
      ∃ v, s.input.readByte.1 = some v ∧ t.memRead 0xFFFF = inputWord v

/-- 20_memory.md R47: under `Run` cell 0xFFFF can never be read back: states that differ only there go on differing only there, for any number
of cycles, with the same pc, input and output. -/
def Obligations.TopCellIsInvisibleUnderRun : Prop :=
  ∀ (n : Nat) (s s' t : State), AgreeBelowTop s s' → cycles n s = .next t →
    ∃ t', cycles n s' = .next t' ∧ AgreeBelowTop t t'
end

