-- ==== Sys2Proof/Laws/State.lean ====
section
/-! SUPPORT. What each update of MachineState and of State does to each field: one lemma per field per update, so that no later proof unfolds
a record update. -/

namespace Sys2Proof.Machine

section Machine

variable (m : MachineState)

@[simp] theorem MachineState.memWrite_pc (addr v : Word) : (m.memWrite addr v).pc = m.pc := rfl

@[simp] theorem MachineState.memWrite_mem (addr v : Word) : (m.memWrite addr v).mem = m.mem.write addr v := rfl

@[simp] theorem MachineState.setPc_pc (target : Word) : (m.setPc target).pc = target := rfl

@[simp] theorem MachineState.setPc_mem (target : Word) : (m.setPc target).mem = m.mem := rfl

@[simp] theorem MachineState.setPc_memRead (target : Word) (x : Word) : (m.setPc target).memRead x = m.memRead x := rfl

@[simp] theorem MachineState.advance_pc : m.advance.pc = m.pc + 3 := rfl

@[simp] theorem MachineState.advance_mem : m.advance.mem = m.mem := rfl

@[simp] theorem MachineState.advance_memRead (x : Word) : m.advance.memRead x = m.memRead x := rfl

@[simp] theorem MachineState.warmReset_pc : m.warmReset.pc = 0 := rfl

@[simp] theorem MachineState.warmReset_mem : m.warmReset.mem = m.mem := rfl

@[simp] theorem MachineState.warmReset_memRead (x : Word) : m.warmReset.memRead x = m.memRead x := rfl

@[simp] theorem MachineState.storeOperand_pc (field v : Word) : (m.storeOperand field v).pc = m.pc := rfl

@[simp] theorem MachineState.storeOperand_mem (field v : Word) : (m.storeOperand field v).mem = m.mem.write field v := rfl

@[simp] theorem MachineState.attach_machine (i : InputChannel) (o : OutputChannel) : (m.attach i o).machine = m := rfl

@[simp] theorem MachineState.attach_env (i : InputChannel) (o : OutputChannel) : (m.attach i o).env = ⟨i, o⟩ := rfl

end Machine

section State

variable (s : State)

@[simp] theorem State.onMachine_machine (f : MachineState → MachineState) : (s.onMachine f).machine = f s.machine := rfl

@[simp] theorem State.onMachine_input (f : MachineState → MachineState) : (s.onMachine f).env.input = s.env.input := rfl

@[simp] theorem State.onMachine_output (f : MachineState → MachineState) : (s.onMachine f).env.output = s.env.output := rfl

@[simp] theorem State.memWrite_machine (addr v : Word) : (s.memWrite addr v).machine = s.machine.memWrite addr v := rfl

@[simp] theorem State.memWrite_input (addr v : Word) : (s.memWrite addr v).env.input = s.env.input := rfl

@[simp] theorem State.memWrite_output (addr v : Word) : (s.memWrite addr v).env.output = s.env.output := rfl

@[simp] theorem State.warmReset_machine : s.warmReset.machine = s.machine.warmReset := rfl

@[simp] theorem State.warmReset_input : s.warmReset.env.input = s.env.input := rfl

@[simp] theorem State.warmReset_output : s.warmReset.env.output = s.env.output := rfl

@[simp] theorem State.setInput_machine (ch : InputChannel) : (s.setInput ch).machine = s.machine := rfl

@[simp] theorem State.setInput_input (ch : InputChannel) : (s.setInput ch).env.input = ch := rfl

@[simp] theorem State.setInput_output (ch : InputChannel) : (s.setInput ch).env.output = s.env.output := rfl

@[simp] theorem State.setOutput_machine (ch : OutputChannel) : (s.setOutput ch).machine = s.machine := rfl

@[simp] theorem State.setOutput_input (ch : OutputChannel) : (s.setOutput ch).env.input = s.env.input := rfl

@[simp] theorem State.setOutput_output (ch : OutputChannel) : (s.setOutput ch).env.output = ch := rfl

end State

@[simp] theorem InputChannel.took_pending (ch : InputChannel) (v : InputAnswer) : (ch.took v).pending = ch.pending.tail := rfl

@[simp] theorem InputChannel.took_tail (ch : InputChannel) (v : InputAnswer) : (ch.took v).tail = ch.tail := rfl

@[simp] theorem InputChannel.took_consumed (ch : InputChannel) (v : InputAnswer) : (ch.took v).consumed = ch.consumed ++ [v] := rfl

@[simp] theorem OutputChannel.presenting_pending (ch : OutputChannel) (v : Byte) : (ch.presenting v).pending = ch.pending.tail := rfl

@[simp] theorem OutputChannel.presenting_tail (ch : OutputChannel) (v : Byte) : (ch.presenting v).tail = ch.tail := rfl

@[simp] theorem OutputChannel.presenting_presented (ch : OutputChannel) (v : Byte) : (ch.presenting v).presented = ch.presented ++ [v] := rfl

end Sys2Proof.Machine
end

