-- ==== Sys2Proof/Laws/Memory.lean ====
section
/-! SUPPORT. The laws of the memory: a read after a write, what an image reads as, and that every memory has the canonical form, which the
operations on listings keep (20_memory.md R41). -/

namespace Sys2Proof.Machine

/-- Every memory, so also the memory that any operation leaves, is listed in canonical form. -/
theorem Memory.wf_all (m : Memory) : m.wf := m.canonical

@[simp] theorem Memory.write_cells (m : Memory) (a v : Word) : (m.write a v).cells = Cells.write m.cells a.toNat v := rfl

@[simp] theorem Memory.zero_cells : Memory.zero.cells = [] := rfl

@[simp] theorem Memory.read_zero (x : Word) : Memory.zero.read x = 0 := rfl

theorem Cells.lookup_insert_self (m : Cells) (n : Nat) (v : Word) (h : ∀ p ∈ m, p.1 ≠ n) :
    Cells.lookup (Cells.insert m n v) n = v := by
  induction m with
  | nil => simp [Cells.insert, Cells.lookup]
  | cons p m ih =>
    obtain ⟨k, w⟩ := p
    have hk : k ≠ n := h (k, w) (by simp)
    have ih := ih fun q hq => h q (by simp [hq])
    by_cases hn : n < k <;> simp [Cells.insert, Cells.lookup, hn, hk, ih]

theorem Cells.lookup_insert_other (m : Cells) {n k : Nat} (v : Word) (h : k ≠ n) :
    Cells.lookup (Cells.insert m n v) k = Cells.lookup m k := by
  induction m with
  | nil => simp [Cells.insert, Cells.lookup, Ne.symm h]
  | cons p m ih =>
    obtain ⟨j, w⟩ := p
    by_cases hn : n < j <;> simp [Cells.insert, Cells.lookup, hn, Ne.symm h, ih]

theorem Cells.lookup_erase_self (m : Cells) (n : Nat) : Cells.lookup (Cells.erase m n) n = 0 := by
  induction m with
  | nil => rfl
  | cons p m ih =>
    obtain ⟨k, w⟩ := p
    by_cases hk : k = n <;> simp_all [Cells.erase, Cells.lookup]

theorem Cells.lookup_erase_other (m : Cells) {n k : Nat} (h : k ≠ n) :
    Cells.lookup (Cells.erase m n) k = Cells.lookup m k := by
  induction m with
  | nil => rfl
  | cons p m ih =>
    obtain ⟨j, w⟩ := p
    by_cases hj : j = n
    · subst hj; simpa [Cells.erase, Cells.lookup, Ne.symm h] using ih
    · by_cases hk : j = k <;> simp_all [Cells.erase, Cells.lookup]

/-- What a listing gives after a write, canonical or not. -/
theorem Cells.lookup_write (m : Cells) (n : Nat) (v : Word) (k : Nat) :
    Cells.lookup (Cells.write m n v) k = if k = n then v else Cells.lookup m k := by
  unfold Cells.write
  by_cases h : k = n
  · subst h
    by_cases hv : v = 0
    · simp [hv, Cells.lookup_erase_self]
    · rw [if_neg hv, if_pos rfl]
      exact Cells.lookup_insert_self _ _ _ fun p hp => (Cells.mem_erase hp).2
  · by_cases hv : v = 0
    · simp [hv, h, Cells.lookup_erase_other _ h]
    · rw [if_neg hv, if_neg h, Cells.lookup_insert_other _ _ h, Cells.lookup_erase_other _ h]

/-- R41: what every cell holds after a write. -/
theorem Memory.read_write (m : Memory) (a v x : Word) :
    (m.write a v).read x = if x = a then v else m.read x := by
  simpa [Memory.read, BitVec.toNat_inj] using Cells.lookup_write m.cells a.toNat v x.toNat

theorem Cells.lookup_eq_zero {m : Cells} {n : Nat} (h : ∀ p ∈ m, p.1 ≠ n) : Cells.lookup m n = 0 := by
  induction m with
  | nil => rfl
  | cons p m ih =>
    have hp : p.1 ≠ n := h p (by simp)
    simpa [Cells.lookup, hp] using ih fun q hq => h q (by simp [hq])

theorem Cells.lookup_ofImage (k : Nat) (image : List Word) (i : Nat) :
    Cells.lookup (Cells.ofImage k image) (k + i) = image.getD i 0 := by
  induction image generalizing k i with
  | nil => rfl
  | cons w ws ih =>
    cases i with
    | zero =>
      unfold Cells.ofImage
      split
      · next hw =>
        simpa [hw] using Cells.lookup_eq_zero fun p hp => by
          have := (Cells.mem_ofImage hp).1; omega
      · simp [Cells.lookup]
    | succ i =>
      have ih := ih (k + 1) i
      rw [show k + 1 + i = k + (i + 1) by omega] at ih
      unfold Cells.ofImage
      split
      · simpa using ih
      · simpa [Cells.lookup] using ih

/-- R171, R33: the image in the lowest addresses, zero above it. -/
theorem Memory.read_ofImage (image : List Word) (h : image.length ≤ Config.memSize) (x : Word) :
    (Memory.ofImage image h).read x = image.getD x.toNat 0 := by
  simpa [Memory.read, Memory.ofImage] using Cells.lookup_ofImage 0 image x.toNat

/-- R171, R172: what `Construct` answers, for an image that fits and for one that does not. -/
theorem construct_of_le {image : List Word} (h : image.length ≤ Config.memSize) :
    construct image = .next ⟨Config.pcReset, Memory.ofImage image h⟩ :=
  dif_pos h

theorem construct_of_gt {image : List Word} (h : ¬image.length ≤ Config.memSize) : construct image = .refused .imageTooLong :=
  dif_neg h

/-- R41 on the machine. -/
theorem MachineState.memRead_memWrite (m : MachineState) (a v x : Word) :
    (m.memWrite a v).memRead x = if x = a then v else m.memRead x :=
  Memory.read_write m.mem a v x

/-- R41 through an operand field. -/
theorem MachineState.memRead_storeOperand (m : MachineState) (field v x : Word) :
    (m.storeOperand field v).memRead x = if x = field then v else m.memRead x :=
  Memory.read_write m.mem field v x

end Sys2Proof.Machine
end

