-- ==== Sys2Proof/Laws/Ops.lean ====
section
/-! SUPPORT. What each shared operation, each meaning and the step can do, said once: later proofs cite these and do not unfold them. -/

namespace Sys2Proof.Machine

/-- R72, R136: an operand field is the address itself. -/
theorem MachineState.operand_eq (m : MachineState) (field : Word) : m.operand field = m.memRead field := rfl

/-- R114: the byte of an OUT. -/
theorem outputByte_eq (a : Word) (m : MachineState) : outputByte a m = lowByte (m.memRead a) := rfl

/-! The three effects on the machine: `pc` and every cell. -/

@[simp] theorem inputEffect_pc (b v : Word) (m : MachineState) : (inputEffect b v m).pc = m.pc + 3 := rfl

theorem inputEffect_memRead (b v : Word) (m : MachineState) (x : Word) :
    (inputEffect b v m).memRead x = if x = b then v else m.memRead x :=
  Memory.read_write m.mem b v x

@[simp] theorem outputEffect_pc (m : MachineState) : (outputEffect m).pc = m.pc + 3 := rfl

@[simp] theorem outputEffect_mem (m : MachineState) : (outputEffect m).mem = m.mem := rfl

@[simp] theorem outputEffect_memRead (m : MachineState) (x : Word) : (outputEffect m).memRead x = m.memRead x := rfl

theorem subleqEffect_pc (a b c : Word) (m : MachineState) :
    (subleqEffect a b c m).pc = if branchTaken (m.memRead b - m.memRead a) then c else m.pc + 3 := by
  unfold subleqEffect
  cases h : branchTaken (difference (m.operand b) (m.operand a)) <;>
    simp_all [difference, MachineState.operand_eq]

theorem subleqEffect_mem (a b c : Word) (m : MachineState) :
    (subleqEffect a b c m).mem = m.mem.write b (m.memRead b - m.memRead a) := by
  unfold subleqEffect
  cases h : branchTaken (difference (m.operand b) (m.operand a)) <;>
    simp_all [difference, MachineState.operand_eq]

theorem subleqEffect_memRead (a b c : Word) (m : MachineState) (x : Word) :
    (subleqEffect a b c m).memRead x = if x = b then m.memRead b - m.memRead a else m.memRead x := by
  rw [MachineState.memRead, subleqEffect_mem]
  exact Memory.read_write m.mem b _ x

/-- One attempt at `ReadByte()` either gives an answer, which is appended to the answers consumed, or gives none and leaves these as they
were. -/
theorem InputChannel.readByte_cases (ch : InputChannel) :
    (∃ v, ch.readByte = (some v, ch.took v)) ∨
    (∃ rest, ch.readByte = (none, rest) ∧ rest.tail = ch.tail ∧ rest.consumed = ch.consumed) := by
  obtain ⟨pending, tail, consumed⟩ := ch
  rcases pending with _ | ⟨_ | v, rest⟩
  · cases tail with
    | free => exact .inl ⟨_, rfl⟩
    | ended => exact .inl ⟨_, rfl⟩
    | silent => exact .inr ⟨_, rfl, rfl, rfl⟩
  · exact .inr ⟨_, rfl, rfl, rfl⟩
  · exact .inl ⟨v, rfl⟩

/-- One attempt at `WriteByte(v)` either ends the transaction, with `v` appended to the bytes presented, or leaves these as they were. -/
theorem OutputChannel.writeByte_cases (ch : OutputChannel) (v : Byte) :
    ch.writeByte v = (true, ch.presenting v) ∨
    (∃ rest, ch.writeByte v = (false, rest) ∧ rest.tail = ch.tail ∧ rest.presented = ch.presented) := by
  obtain ⟨pending, tail, presented⟩ := ch
  rcases pending with _ | ⟨_ | _ | _, rest⟩
  · cases tail with
    | ready => exact .inl rfl
    | silent => exact .inr ⟨_, rfl, rfl, rfl⟩
  · exact .inr ⟨_, rfl, rfl, rfl⟩
  · exact .inl rfl
  · exact .inl rfl

/-- Whether a sink accepts does not depend on the byte. -/
theorem OutputChannel.writeByte_fst (ch : OutputChannel) (v w : Byte) : (ch.writeByte v).1 = (ch.writeByte w).1 := by
  obtain ⟨pending, tail, presented⟩ := ch
  rcases pending with _ | ⟨_ | _ | _, rest⟩
  · cases tail <;> rfl
  · rfl
  · rfl
  · rfl

/-- R113, R115: the two things an IN can do. -/
theorem exec_input_cases (b c : Word) (s : State) :
    (∃ v, s.input.readByte = (some v, s.input.took v) ∧
      exec (.input b c) s = .next ((s.setInput (s.input.took v)).onMachine (inputEffect b (inputWord v)))) ∨
    (∃ ch, s.input.readByte = (none, ch) ∧ ch.tail = s.input.tail ∧ ch.consumed = s.input.consumed ∧
      exec (.input b c) s = .next (s.setInput ch)) := by
  rcases s.input.readByte_cases with ⟨v, hv⟩ | ⟨ch, hch, ht, hc⟩
  · exact .inl ⟨v, hv, by simp only [exec, execInput, hv]⟩
  · exact .inr ⟨ch, hch, ht, hc, by simp only [exec, execInput, hch]⟩

/-- R114, R115: the two things an OUT can do. -/
theorem exec_output_cases (a c : Word) (s : State) :
    (s.output.writeByte (outputByte a s.machine) = (true, s.output.presenting (outputByte a s.machine)) ∧
      exec (.output a c) s = .next ((s.setOutput (s.output.presenting (outputByte a s.machine))).onMachine outputEffect)) ∨
    (∃ ch, s.output.writeByte (outputByte a s.machine) = (false, ch) ∧ ch.tail = s.output.tail ∧
      ch.presented = s.output.presented ∧ exec (.output a c) s = .next (s.setOutput ch)) := by
  rcases s.output.writeByte_cases (outputByte a s.machine) with h | ⟨ch, h, ht, hc⟩
  · exact .inl ⟨h, by simp only [exec, execOutput, h]⟩
  · exact .inr ⟨ch, h, ht, hc, by simp only [exec, execOutput, h]⟩

/-- R130: the one thing a SUBLEQ does. -/
theorem exec_subleq_eq (a b c : Word) (s : State) :
    exec (.subleq a b c) s = .next (s.onMachine (subleqEffect a b c)) := rfl

/-! R97 on the pair, form by form: what `Step` does when `ReadByte()` returns `v`, and the byte given to `WriteByte`. -/

theorem machineStep_input {m : MachineState} {b c : Word} (h : decode m.fetch = .input b c) (v : Word) :
    machineStep v m = (inputEffect b v m, none) := by
  simp only [machineStep, h]

theorem machineStep_output {m : MachineState} {a c : Word} (h : decode m.fetch = .output a c) (v : Word) :
    machineStep v m = (outputEffect m, some (outputByte a m)) := by
  simp only [machineStep, h]

theorem machineStep_subleq {m : MachineState} {a b c : Word} (h : decode m.fetch = .subleq a b c) (v : Word) :
    machineStep v m = (subleqEffect a b c m, none) := by
  simp only [machineStep, h]

/-! R115, form by form: when the instruction at `pc` holds. -/

theorem holds_input {s : State} {b c : Word} (h : decode (fetch s) = .input b c) : s.holds = s.input.readByte.1.isNone := by
  simp only [State.holds, h]

theorem holds_output {s : State} {a c : Word} (h : decode (fetch s) = .output a c) :
    s.holds = !(s.output.writeByte (outputByte a s.machine)).1 := by
  simp only [State.holds, h]

theorem holds_subleq {s : State} {a b c : Word} (h : decode (fetch s) = .subleq a b c) : s.holds = false := by
  simp only [State.holds, h]

/-- R93: the cycle of a halted machine and of a running one. -/
theorem step_of_halted {s : State} (h : s.halted = true) : step s = .next s := by
  simp [step, cycle, h]

theorem step_of_running {s : State} (h : s.halted = false) : step s = exec (decode (fetch s)) s := by
  simp [step, cycle, instructionStep, h]

/-- R99, R100: a run on a halted machine has ended. -/
theorem run_of_halted {s : State} (h : s.halted = true) (fuel : Nat) : run fuel s = some (Config.statusSuccess, s) := by
  unfold run; simp [State.status, h]

theorem run_zero_of_running {s : State} (h : s.halted = false) : run 0 s = none := by
  unfold run; simp [State.status, h]

/-- R92: a running machine makes one step and the run goes on. -/
theorem run_succ_of_running {s t : State} (h : s.halted = false) (ht : step s = .next t) (fuel : Nat) :
    run (fuel + 1) s = run fuel t := by
  rw [run]; simp [State.status, h, ht]

end Sys2Proof.Machine
end

