-- ==== Sys2Proof/Laws/Cycles.lean ====
section
/-! SUPPORT. What a number of cycles does, one cycle at a time. -/

namespace Sys2Proof.Safety

open Sys2Proof.Machine

@[simp] theorem cycles_zero (s : State) : cycles 0 s = .next s := rfl

/-- Of any machine behind the host's interface: a first step that answers a next state, and the rest of the run from there. -/
theorem core_run_succ (M : Host.Core) {s t : M.State} (h : M.step s = .next t) (n : Nat) : M.run (n + 1) s = M.run n t := by
  simp only [Host.Core.run, h]

/-- A first cycle that answers a next state, and the rest from there. -/
theorem cycles_succ {s t : State} (h : step s = .next t) (n : Nat) : cycles (n + 1) s = cycles n t :=
  core_run_succ Sys2Proof.core h n

end Sys2Proof.Safety
end

