-- ==== Sys2Proof/Laws/PerInstr.lean ====
section
/-! SUPPORT. Statements for all instructions, one lemma per constructor (LAWS.json). -/

namespace Sys2Proof.Laws.ThirdWordIsFieldC

/-- 30_encoding.md R70, R73: field `c` is the third Word of every form's encoding, ignored or not, and takes no part in the selection: with
another `c` the decoder finds the same form. -/
def Statement (i : Instr) : Prop :=
  (encode i).c = i.fieldC ∧
    ∀ c' : Word, (decode (Triple.mk (encode i).a (encode i).b c')).mnemonic = (decode (encode i)).mnemonic

theorem anyC (t : Triple) (c' : Word) : (decode ⟨t.a, t.b, c'⟩).mnemonic = (decode t).mnemonic := by
  unfold decode
  split
  · rfl
  · split <;> rfl

theorem input (b c : Word) : Statement (.input b c) := ⟨rfl, anyC _⟩

theorem output (a c : Word) : Statement (.output a c) := ⟨rfl, anyC _⟩

theorem subleq (a b c : Word) : Statement (.subleq a b c) := ⟨rfl, anyC _⟩

end Sys2Proof.Laws.ThirdWordIsFieldC
end

