-- ==== Sys2Proof/Tests/Slice0.lean ====
section
/-! SUPPORT. Tests of one step on small states, with results taken from 95_test_vectors.md, and the witnesses that the hypotheses of the
obligations can be met, at the boundaries of their clauses. -/

namespace Sys2Proof.Tests

open Sys2Proof.Machine Sys2Proof.Safety

/-- A small state: `pc`, and the listed cells, written one after the other. -/
def small (pc : Word) (cells : List (Word × Word)) : State :=
  cells.foldl (fun s p => s.memWrite p.1 p.2) (State.reset.onMachine (fun m => m.setPc pc))

/-- The same with events of the input source. -/
def withInput (s : State) (events : List InputEvent) (tail : InputTail) : State := s.setInput ⟨events, tail, []⟩

/-- The same with events of the output sink. -/
def withOutput (s : State) (events : List OutputEvent) (tail : OutputTail) : State := s.setOutput ⟨events, tail, []⟩

/-- The next state, if there is one. -/
def nextState : Host.Outcome State Fault Refusal → Option State
  | .next s => some s
  | _ => none

theorem exists_next {o : Host.Outcome State Fault Refusal} (h : (nextState o).isSome = true) : ∃ t, o = .next t := by
  cases o with
  | next t => exact ⟨t, rfl⟩
  | fault r => cases r
  | refused r => cases h

/-! ### WellFormed: one ill-formed term for each check -/

theorem test_output_of_sentinel_ill_formed : Instr.WellFormed (.output 0xFFFF 0) = false := by decide

theorem test_subleq_a_sentinel_ill_formed : Instr.WellFormed (.subleq 0xFFFF 0 0) = false := by decide

theorem test_subleq_b_sentinel_ill_formed : Instr.WellFormed (.subleq 0 0xFFFF 0) = false := by decide

theorem test_well_formed_below_sentinel :
    Instr.WellFormed (.input 0xFFFF 0xFFFF) = true ∧ Instr.WellFormed (.output 0xFFFE 0xFFFF) = true ∧
      Instr.WellFormed (.subleq 0xFFFE 0xFFFE 0xFFFF) = true := by decide

/-! ### Decoding: words of 95_test_vectors.md V5 and of the worked examples of R113, R114, R130 -/

theorem test_decode_input : decode ⟨0xFFFF, 0x0040, 0x0000⟩ = .input 0x0040 0x0000 := by decide

theorem test_decode_both_sentinels_is_input : decode ⟨0xFFFF, 0xFFFF, 0x0007⟩ = .input 0xFFFF 0x0007 := by decide

theorem test_decode_output : decode ⟨0x0050, 0xFFFF, 0x1234⟩ = .output 0x0050 0x1234 := by decide

theorem test_decode_subleq : decode ⟨0x8000, 0x7FFF, 0xFFFF⟩ = .subleq 0x8000 0x7FFF 0xFFFF := by decide

theorem test_decode_zeroed_memory : decode ⟨0, 0, 0⟩ = .subleq 0 0 0 := by decide

/-- The instruction value has `a`, the first Word, in its high bits (R71), and the placed triple has it at the lowest address (R70). -/
theorem test_table_word_order :
    decodeTableWord 48 0xFFFF00400000 = some (.input 0x0040 0) ∧
      fetch (State.reset.withFetchWord 48 0x0050FFFF1234) = ⟨0x0050, 0xFFFF, 0x1234⟩ := by decide

/-! ### One step -/

/-- V1 A08: 0x7FFF - 0xFFFF wraps to 0x8000, and the branch is taken. -/
theorem test_subleq_overflow_branches :
    (nextState (step (small 0x10 [(0x10, 0x20), (0x11, 0x21), (0x12, 0x40), (0x20, 0xFFFF), (0x21, 0x7FFF)]))).map
      (fun t => (t.pc, t.memRead 0x21, t.memRead 0x20)) = some (0x40, 0x8000, 0xFFFF) := by decide

/-- V2 B01: the store goes into the own `c` cell, and the branch to the latched `c`. -/
theorem test_subleq_latched_target :
    (nextState (step (small 0x10 [(0x10, 0x20), (0x11, 0x12), (0x12, 0x30), (0x20, 0x31)]))).map
      (fun t => (t.pc, t.memRead 0x12)) = some (0x30, 0xFFFF) := by decide

/-- V3 I4: the byte 0xFF arrives as 0x00FF, the old high byte is not kept, and `c` does not branch. -/
theorem test_input_zero_extends :
    (nextState (step (withInput (small 0x10 [(0x10, 0xFFFF), (0x11, 0x40), (0x12, 0xFFFF), (0x40, 0xABCD)])
      [.answer (.byte 0xFF)] .ended))).map (fun t => (t.pc, t.memRead 0x40, t.output.presented)) =
      some (0x13, 0x00FF, []) := by decide

/-- V6 W5: at 0xFFFE, by `Step`: both sentinels are IN, the cell 0xFFFF is its own `b` cell, and the advance wraps. -/
theorem test_input_wraps_at_top :
    (nextState (instructionStep (withInput (small 0xFFFE [(0xFFFE, 0xFFFF), (0xFFFF, 0xFFFF), (0, 5)])
      [.answer (.byte 0x42)] .ended))).map (fun t => (t.pc, t.memRead 0xFFFF, t.memRead 0)) = some (1, 0x0042, 5) := by decide

/-- V4 O1: 0x1F41 is presented as 0x41. -/
theorem test_output_low_byte :
    (nextState (step (small 0x20 [(0x20, 0x50), (0x21, 0xFFFF), (0x22, 0x1234), (0x50, 0x1F41)]))).map
      (fun t => (t.pc, t.memRead 0x50, t.output.presented)) = some (0x23, 0x1F41, [0x41]) := by decide

/-- V4 O8, then O1: the sink is not ready and the OUT holds. -/
theorem test_output_holds :
    (nextState (step (withOutput (small 0x20 [(0x20, 0x50), (0x21, 0xFFFF), (0x22, 0x1234), (0x50, 0x1F41)])
      [.notYet, .failed] .ready))).map (fun t => (t.pc, t.output.presented, t.output.pending)) =
      some (0x20, [], [.failed]) := by decide

/-! ### Witnesses: the hypotheses of the obligations, clause by clause -/

/-- ConstructLoadsImage: the longest image, an address inside and one above a short one; ConstructRefusesLongImage: one Word too many. -/
theorem witness_images :
    (List.replicate 65536 (1 : Word)).length ≤ 65536 ∧ (2 : Word).toNat < [(2 : Word), 2, 0x8000].length ∧
      [(2 : Word), 2, 0x8000].length ≤ (3 : Word).toNat ∧ 65536 < (List.replicate 65537 (1 : Word)).length := by
  simp only [List.length_replicate]; decide

/-- StepKeepsInputWordInTopCell: the invariant holds at reset, and at the boundaries of its two clauses; it does not hold of every state.
WarmResetWritesPcOnly: `pc` is 0 at reset. WritesOverwriteAndCommute: two addresses. -/
theorem witness_inv : Inv State.reset ∧ Inv (small 0 [(0xFFFF, 255)]) ∧ Inv (small 0 [(0xFFFF, 0xFFFF)]) ∧
    ¬Inv (small 0 [(0xFFFF, 256)]) ∧ State.reset.pc = 0 ∧ (0 : Word) ≠ 0xFFFF := by decide

/-- ResetStateIsEmptyConstruct: a construction that succeeds. -/
theorem witness_construct : ∃ m, construct [2, 2, 0x8000] = .next m := ⟨_, rfl⟩

theorem witness_step_keeps : ∃ t, step (small 0 [(0, 1)]) = .next t := exists_next (by decide)

/-- DecodeEncodeRoundTrip: test_well_formed_below_sentinel. DecoderFollowsPriority, InputAndOutputIgnoreC, SubleqResult, OutputResult,
OutputAttemptIsAStep, PseudoInstructionEffects: operands that are no sentinel, and triples with one. -/
theorem witness_sentinel_tests : (0xFFFE : Word) ≠ 0xFFFF ∧ (0 : Word) ≠ 0xFFFF ∧ ((0xFFFF : Word) = 0xFFFF ∨ (0 : Word) = 0xFFFF) := by
  decide

/-- SubleqResult, PcMovesOnlyByAdvanceOrBranch: differences at the boundaries of the branch test. -/
theorem witness_branch_boundaries :
    branchTaken 0 = true ∧ branchTaken 1 = false ∧ branchTaken 0x7FFF = false ∧ branchTaken 0x8000 = true ∧
      branchTaken 0xFFFF = true := by decide

/-- InputResult, InputAttemptIsAStep, ReadByteFollowsTheSource: a channel for each clause. -/
theorem witness_input_channels :
    (InputChannel.mk [.answer (.byte 0xFF)] .free []).readByte.1 = some (.byte 0xFF) ∧
    (InputChannel.mk [] .ended []).readByte.1 = some .endOrFailure ∧
    (InputChannel.mk [] .free []).readByte.1.isSome = true ∧
    (InputChannel.mk [.notYet] .free []).readByte.1 = none ∧
    (InputChannel.mk [] .silent []).readByte.1 = none := by decide

/-- InputResult on the free channel: the answer is one the model does not know, and there is one. -/
theorem witness_free_answer : ∃ v, State.reset.input.readByte.1 = some v := ⟨_, rfl⟩

/-- OutputResult, OutputAttemptIsAStep, WriteByteFollowsTheSink, HeldInstructionIsRetried (a hold ended by the sink taking the byte, and by its
failing): a channel for each clause. -/
theorem witness_output_channels :
    (∀ v, ((OutputChannel.mk [] .ready []).writeByte v).1 = true) ∧
    (∀ v, ((OutputChannel.mk [.taken] .silent []).writeByte v).1 = true) ∧
    (∀ v, ((OutputChannel.mk [.failed] .silent []).writeByte v).1 = true) ∧
    (∀ v, ((OutputChannel.mk [.notYet] .ready []).writeByte v).1 = false) ∧
    (∀ v, ((OutputChannel.mk [] .silent []).writeByte v).1 = false) :=
  ⟨fun _ => rfl, fun _ => rfl, fun _ => rfl, fun _ => rfl, fun _ => rfl⟩

/-- An IN and an OUT at address 0, both with field `c` 5. -/
def anInput : State := small 0 [(0, 0xFFFF), (1, 0x40), (2, 5)]

def anOutput : State := small 0 [(0, 0x40), (1, 0xFFFF), (2, 5), (0x40, 0x1F41)]

/-- OneTransactionPerCycle, HeldInstructionIsRetried, StepRunsDecodedInstruction, EveryStateHasANextState: running machines that fetch each
form. -/
theorem witness_forms_fetched :
    anInput.halted = false ∧ decode (fetch anInput) = .input 0x40 5 ∧
    anOutput.halted = false ∧ decode (fetch anOutput) = .output 0x40 5 ∧
    State.reset.halted = false ∧ decode (fetch State.reset) = .subleq 0 0 0 := by decide

theorem witness_forms_step : (∃ t, step anInput = .next t) ∧ (∃ t, step anOutput = .next t) ∧ ∃ t, step State.reset = .next t :=
  ⟨exists_next (by decide), exists_next (by decide), exists_next (by decide)⟩

/-- SilentChannelHoldsForever, HoldsDoNotChangeResults, SinkFailuresAreInvisible, PcMovesOnlyByAdvanceOrBranch, ChannelsArePassedIn,
StepRefinesPseudocode: held and not held. -/
theorem witness_holds :
    (withInput anInput [] .silent).holds = true ∧ (withOutput anOutput [] .silent).holds = true ∧
    decode (fetch (withInput anInput [] .silent)) = .input 0x40 5 ∧
    decode (fetch (withOutput anOutput [] .silent)) = .output 0x40 5 ∧
    anInput.holds = false ∧ anOutput.holds = false := by decide

theorem witness_cycles :
    (∃ t, cycles 1 (withOutput anOutput [.notYet] .ready) = .next t) ∧
    (∃ t, cycles 1 (withOutput anOutput [.failed] .ready) = .next t) :=
  ⟨exists_next (by decide), exists_next (by decide)⟩

/-- OnlyTheAnswerReachesTheMachine: one machine between two environments, with the same answer for an IN, and with a sink that takes the byte
and one that fails for an OUT. -/
theorem witness_environments :
    (withInput anInput [.answer (.byte 5)] .ended).holds = false ∧
    (withInput anInput [.answer (.byte 5), .notYet] .silent).holds = false ∧
    (withInput anInput [.answer (.byte 5)] .ended).machine = (withInput anInput [.answer (.byte 5), .notYet] .silent).machine ∧
    (withInput anInput [.answer (.byte 5)] .ended).input.readByte.1 =
      (withInput anInput [.answer (.byte 5), .notYet] .silent).input.readByte.1 ∧
    (withOutput anOutput [.taken] .ready).holds = false ∧ (withOutput anOutput [.failed] .silent).holds = false ∧
    (withOutput anOutput [.taken] .ready).machine = (withOutput anOutput [.failed] .silent).machine := by decide

theorem witness_environments_step :
    (∃ t, instructionStep (withInput anInput [.answer (.byte 5)] .ended) = .next t) ∧
    (∃ t, instructionStep (withInput anInput [.answer (.byte 5), .notYet] .silent) = .next t) :=
  ⟨exists_next (by decide), exists_next (by decide)⟩

/-- InputStreamAnswersInOrder: the last byte of a stream and the first answer after it. -/
theorem witness_stream :
    0 < 2 ∧ 1 < 2 ∧ [(0x61 : Byte)][0]? = some 0x61 ∧ [(0x61 : Byte)].length ≤ 1 ∧
      attempts 2 (InputChannel.stream [0x61]) = [some (.byte 0x61), some .endOrFailure] := by decide

/-- InputStreamWithHolds: a channel that holds before its byte, before the end of stream and after that. -/
theorem witness_stream_with_holds :
    (InputChannel.mk [.notYet, .answer (.byte 0x61), .notYet, .answer .endOrFailure, .notYet] .ended []).IsStream [0x61] ∧
    (attempts 6 ⟨[.notYet, .answer (.byte 0x61), .notYet, .answer .endOrFailure, .notYet], .ended, []⟩).filterMap id =
      [.byte 0x61, .endOrFailure, .endOrFailure] ∧ [(0x61 : Byte)][0]? = some 0x61 ∧ [(0x61 : Byte)].length ≤ 1 :=
  ⟨⟨rfl, 1, rfl⟩, by decide, rfl, by decide⟩

/-- The type of memory: a written zero leaves no entry, whatever was there, so that equal memories are equal data (R20). -/
theorem test_equal_memories_are_equal_data :
    ((small 0 [(5, 7)]).memWrite 5 0).machine = MachineState.reset ∧
      (small 0 [(5, 7), (2, 1)]).machine = (small 0 [(2, 1), (5, 7)]).machine := by decide

/-- BranchTestAgainstSignedOrder: the signed differences at which its clauses meet. -/
theorem witness_signed_differences :
    (0x7FFF : Word).toInt - (0 : Word).toInt = 32767 ∧ (0x7FFF : Word).toInt - (0xFFFF : Word).toInt = 32768 ∧
    (0x8000 : Word).toInt - (0 : Word).toInt = -32768 ∧ (0x8000 : Word).toInt - (1 : Word).toInt = -32769 := by decide

/-- PseudoInstructionEffects: a zero cell, and `BLEZ` cells on both sides of its test. -/
theorem witness_zero_cell :
    (small 0 [(7, 0x8000), (8, 1)]).memRead 9 = 0 ∧ ((small 0 [(7, 0x8000), (8, 1)]).memRead 7).msb = true ∧
      ¬((small 0 [(7, 0x8000), (8, 1)]).memRead 8 = 0 ∨ ((small 0 [(7, 0x8000), (8, 1)]).memRead 8).msb = true) := by decide

/-- HaltedMachineDoesNothing, RunOnHaltedMachineReturnsAtOnce, FetchReadsThreeWords, FetchReachUnderRun: the last running and the first
halted `pc`, and where the fetch and the advance wrap. -/
theorem witness_phases :
    (small 0x7FFF []).halted = false ∧ (small 0x8000 []).halted = true ∧ (small 0x8000 []).pc.getLsbD 15 = true ∧
    (small 0xFFFE []).pc = 0xFFFE ∧ (small 0xFFFC []).machine.advance.pc.toNat = 0xFFFF ∧ (small 0xFFFD []).machine.advance.pc.toNat = 0 := by
  decide

/-- RunEndsAtFirstHaltedState, RunOnHaltedMachineReturnsAtOnce: a run that ends at once, and one of one instruction. -/
theorem witness_runs :
    (∃ st t, run 0 (small 0x8000 []) = some (st, t)) ∧
    (run 1 (small 0 [(0, 2), (1, 2), (2, 0x8000)])).isSome = true ∧ (run 0 (small 0 [(0, 2), (1, 2), (2, 0x8000)])).isSome = false :=
  ⟨⟨_, _, run_of_halted (by decide) 0⟩, by decide, by decide⟩

/-- ChannelsAreAttachedForOneRun: a run that ends, of a program that reads one byte and halts by the branch of its second instruction. -/
theorem witness_run_with :
    (runWith 2 (InputChannel.stream [0x61]) OutputChannel.fresh
      (small 0 [(0, 0xFFFF), (1, 0x40), (3, 5), (4, 5), (5, 0x8000)]).machine).isSome = true := by decide

/-- HaltingHappensInTwoWays: by a branch to 0x8000, and by the advance from 0x7FFD, 0x7FFE and 0x7FFF (V7 F1 to F3). -/
theorem witness_halting :
    (nextState (step (small 0 [(0, 2), (1, 2), (2, 0x8000)]))).map (fun t => t.pc) = some 0x8000 ∧
    [(0x7FFD : Word), 0x7FFE, 0x7FFF].map (fun pc => (nextState (step (small pc
      [(0x7FFD, 0x100), (0x7FFE, 0x101), (0x7FFF, 0x102), (0x8000, 0x103), (0x8001, 0x104),
       (0x100, 1), (0x101, 5), (0x102, 9), (0x103, 20)]))).map (fun t => t.pc)) =
      [some 0x8000, some 0x8001, some 0x8002] := by decide

/-- HaltingHappensInTwoWays, its converse: a taken branch whose fetched target is 0x8000; and at 0x7FFD an IN that does not hold, at 0x7FFF a SUBLEQ
whose branch is not taken. -/
theorem witness_halting_converse :
    decode (fetch (small 0 [(0, 2), (1, 2), (2, 0x8000)])) = .subleq 2 2 0x8000 ∧ branchTaken (0x8000 - 0x8000) = true ∧
    (0x8000 : Word).toNat = 0x8000 ∧
    decode (fetch (small 0x7FFD [(0x7FFD, 0xFFFF), (0x7FFE, 0x40)])) = .input 0x40 0 ∧
    (small 0x7FFD [(0x7FFD, 0xFFFF), (0x7FFE, 0x40)]).holds = false ∧
    decode (fetch (small 0x7FFF [(0x7FFF, 0x40), (0x8000, 0x41), (0x41, 1)])) = .subleq 0x40 0x41 0 ∧
    branchTaken ((small 0x7FFF [(0x41, 1)]).memRead 0x41 - (small 0x7FFF [(0x41, 1)]).memRead 0x40) = false := by decide

/-- NextFetchSeesTheStore: a SUBLEQ and an IN that store into the field `a`, `b` or `c` of the next instruction. -/
theorem witness_store_into_next :
    [(3 : Word), 4, 5].map (fun b => (nextState (step (small 0 [(0, 0x40), (1, b), (2, 3), (0x40, 1)]))).map (fun t => t.pc)) =
      [some 3, some 3, some 3] ∧
    (nextState (step (small 0 [(0, 0xFFFF), (1, 3)]))).isSome = true ∧ (small 0 [(0, 0xFFFF), (1, 3)]).holds = false ∧
    (small 0 [(0, 0x40), (1, 3), (2, 3), (0x40, 1)]).holds = false := by decide

/-- OwnFieldsAreLatched: `a` in each of the own cells, and `b` in the own third cell. -/
theorem witness_own_fields :
    [(0x10 : Word), 0x11, 0x12].map (fun a => decode (fetch (small 0x10 [(0x10, a), (0x11, 0x12), (0x12, 0x30)]))) =
      [.subleq 0x10 0x12 0x30, .subleq 0x11 0x12 0x30, .subleq 0x12 0x12 0x30] ∧
    (small 0x10 []).halted = false ∧ (0x12 : Word) = (small 0x10 []).pc + 2 := by decide

/-- R136 (2): `b` in the own first and second cell; the minuend is the field, the branch goes to the `c` that was fetched, and where that is the
own address (B06's form) the next fetch has the difference in the field. -/
theorem witness_own_destination :
    [(0x10 : Word), 0x11].map (fun b => (nextState (step (small 0x10 [(0x10, 0x20), (0x11, b), (0x12, 0x10), (0x20, 0x21)]))).map fetch) =
      [some ⟨0xFFFF, 0x10, 0x10⟩, some ⟨0x20, 0xFFF0, 0x10⟩] := by decide

/-- R113 (2): an IN into each of its own cells. -/
theorem witness_own_input :
    [(0x10 : Word), 0x11, 0x12].map (fun b => (nextState (step (withInput (small 0x10 [(0x10, 0xFFFF), (0x11, b), (0x12, 7)])
      [.answer (.byte 0x42)] .ended))).map (fun t => (t.memRead b, t.pc))) =
      [some (0x42, 0x13), some (0x42, 0x13), some (0x42, 0x13)] := by decide

/-- R114 (2): an OUT of each of its own cells. -/
theorem witness_own_output :
    [(0x10 : Word), 0x11, 0x12].map (fun a => (nextState (step (small 0x10 [(0x10, a), (0x11, 0xFFFF), (0x12, 0x1234)]))).map
      (fun t => (t.output.presented, t.pc))) = [some ([0x10], 0x13), some ([0xFF], 0x13), some ([0x34], 0x13)] := by decide

/-- ZeroedMemoryHangs: the state after reset. -/
theorem witness_zeroed : State.reset.pc = 0 ∧ ∀ x : Word, State.reset.memRead x = 0 :=
  ⟨rfl, fun _ => rfl⟩

/-- StepWritesOnlyTheNamedCell, TopCellWrittenOnlyByInput: an IN with both sentinels changes cell 0xFFFF (V3 I3). -/
theorem witness_top_cell_written :
    (nextState (step (withInput (small 0x10 [(0x10, 0xFFFF), (0x11, 0xFFFF), (0x12, 7)]) [.answer (.byte 0x7A)] .ended))).map
      (fun t => (t.memRead 0xFFFF, t.pc, t.output.presented)) = some (0x7A, 0x13, []) ∧
    (small 0x10 [(0x10, 0xFFFF), (0x11, 0xFFFF), (0x12, 7)]).memRead 0xFFFF = 0 := by decide

/-- TopCellIsInvisibleUnderRun: two states that differ in cell 0xFFFF alone. -/
theorem witness_agree_below_top : AgreeBelowTop State.reset (State.reset.memWrite 0xFFFF 7) := by
  refine ⟨rfl, rfl, rfl, fun x hx => ?_⟩
  exact ((MachineState.memRead_memWrite _ _ _ _).trans (if_neg hx)).symm

theorem witness_agree_cycles : ∃ t, cycles 3 State.reset = .next t := exists_next (by decide)

end Sys2Proof.Tests
end

/-! PROOFS. What a listing lists, and that reading determines a memory and a machine (10_state.md R20, 20_memory.md R41). -/

namespace Sys2Proof.Machine

/-! ### What a listing lists -/

theorem Cells.lookup_of_mem {m : Cells} (hm : List.Pairwise (fun p q : Nat × Word => p.1 < q.1) m) {n : Nat} {v : Word}
    (h : (n, v) ∈ m) : Cells.lookup m n = v := by
  induction m with
  | nil => simp at h
  | cons p m ih =>
    obtain ⟨hlt, hm⟩ := List.pairwise_cons.mp hm
    rcases List.mem_cons.mp h with rfl | h
    · simp [Cells.lookup]
    · have hne : p.1 ≠ n := (hlt _ h).ne
      simpa [Cells.lookup, hne] using ih hm h

theorem Cells.mem_of_lookup_ne_zero {m : Cells} {n : Nat} (h : Cells.lookup m n ≠ 0) : (n, Cells.lookup m n) ∈ m := by
  induction m with
  | nil => exact absurd rfl h
  | cons p m ih =>
    obtain ⟨k, w⟩ := p
    by_cases hk : k = n
    · simp [Cells.lookup, hk]
    · rw [Cells.lookup, if_neg hk] at h ⊢
      exact List.mem_cons_of_mem _ (ih h)

/-- A canonical listing lists exactly its nonzero cells. -/
theorem Cells.mem_iff_lookup {m : Cells} (hm : m.wf) {n : Nat} {v : Word} :
    (n, v) ∈ m ↔ v ≠ 0 ∧ Cells.lookup m n = v := by
  constructor
  · exact fun h => ⟨(hm.2 _ h).2, Cells.lookup_of_mem hm.1 h⟩
  · rintro ⟨hv, rfl⟩
    exact Cells.mem_of_lookup_ne_zero hv

/-- Two canonical listings with the same entries are the same listing: rising addresses leave one order only. -/
theorem Cells.eq_of_mem_iff {m m' : Cells} (hm : m.wf) (hm' : m'.wf) (h : ∀ p, p ∈ m ↔ p ∈ m') : m = m' := by
  have nodup {l : Cells} (hl : l.wf) : l.Nodup := hl.1.imp fun hlt heq => (congrArg Prod.fst heq).not_lt hlt
  have hperm : m.Perm m' := (List.perm_ext_iff_of_nodup (nodup hm) (nodup hm')).mpr h
  exact hperm.eq_of_pairwise (fun _ _ _ _ hlt hgt => absurd hgt hlt.asymm) hm.1 hm'.1

theorem Memory.read_ofNat (m : Memory) {n : Nat} (hn : n < 65536) : m.read (BitVec.ofNat 16 n) = Cells.lookup m.cells n := by
  rw [Memory.read, BitVec.toNat_ofNat, Nat.mod_eq_of_lt hn]

theorem Memory.mem_cells_iff (m : Memory) (n : Nat) (v : Word) :
    (n, v) ∈ m.cells ↔ n < 65536 ∧ v ≠ 0 ∧ m.read (BitVec.ofNat 16 n) = v := by
  constructor
  · intro h
    have hn : n < 65536 := (m.canonical.2 _ h).1
    exact ⟨hn, m.read_ofNat hn ▸ (Cells.mem_iff_lookup m.canonical).mp h⟩
  · rintro ⟨hn, hv⟩
    exact (Cells.mem_iff_lookup m.canonical).mpr (m.read_ofNat hn ▸ hv)

/-! ### Extensionality (R20): a memory is the function it reads as -/

theorem Memory.ext_read {m m' : Memory} (h : ∀ x : Word, m.read x = m'.read x) : m = m' := by
  have hcells : m.cells = m'.cells :=
    Cells.eq_of_mem_iff m.canonical m'.canonical fun ⟨n, v⟩ => by simp only [Memory.mem_cells_iff, h]
  cases m; cases m'; cases hcells; rfl

theorem MachineState.eq_iff_memRead {m m' : MachineState} : m = m' ↔ m.pc = m'.pc ∧ ∀ x : Word, m.memRead x = m'.memRead x := by
  constructor
  · rintro rfl; exact ⟨rfl, fun _ => rfl⟩
  · rintro ⟨hpc, hmem⟩
    exact congrArg₂ MachineState.mk hpc (Memory.ext_read hmem)

theorem MachineState.halted_of_pc_eq_zero {m : MachineState} (h : m.pc = 0) : m.halted = false := by
  rw [MachineState.halted, h]; rfl

theorem State.eq_iff_machine_channels {s t : State} :
    s = t ↔ s.machine = t.machine ∧ s.input = t.input ∧ s.output = t.output := by
  obtain ⟨m, i, o⟩ := s
  obtain ⟨m', i', o'⟩ := t
  simp

/-! ### What an image reads as (R33) -/

theorem Memory.read_ofImage_of_lt {image : List Word} (h : image.length ≤ Config.memSize) {x : Word}
    (hx : x.toNat < image.length) : (Memory.ofImage image h).read x = image[x.toNat] := by
  rw [Memory.read_ofImage, List.getD_eq_getElem _ _ hx]

theorem Memory.read_ofImage_of_ge {image : List Word} (h : image.length ≤ Config.memSize) {x : Word}
    (hx : image.length ≤ x.toNat) : (Memory.ofImage image h).read x = 0 := by
  rw [Memory.read_ofImage, List.getD_eq_default _ _ hx]

/-! ### Every total memory is listed -/

/-- The memory that reads as a given total function: the image of all 65536 Words, copied from address 0 up (R171). -/
def Memory.ofFun (f : Word → Word) : Memory :=
  Memory.ofImage (List.ofFn fun i : Fin 65536 => f (BitVec.ofFin i)) (Nat.le_of_eq List.length_ofFn)

theorem Memory.read_ofFun (f : Word → Word) (x : Word) : (Memory.ofFun f).read x = f x := by
  have hx : x.toNat < (List.ofFn fun i : Fin 65536 => f (BitVec.ofFin i)).length := List.length_ofFn.symm ▸ x.isLt
  exact (Memory.read_ofImage_of_lt _ hx).trans (List.getElem_ofFn _)

end Sys2Proof.Machine

/-! PROOFS. The statements of 10_state.md about construction, equality of states and the listing of the memory. -/

namespace Sys2Proof.Proofs

open Sys2Proof.Machine Sys2Proof.Safety

/-- Settles O1, by what an image reads as. -/
theorem constructLoadsImage : Obligations.ConstructLoadsImage := by
  intro image (h : image.length ≤ Config.memSize)
  exact ⟨_, construct_of_le h, rfl, MachineState.halted_of_pc_eq_zero rfl, fun _ hi => Memory.read_ofImage_of_lt h hi,
    fun _ hi => Memory.read_ofImage_of_ge h hi, rfl⟩

/-- A machine constructed from an image that does not reach cell 0xFFFF meets the invariant (R33, R47 (e)). -/
theorem inv_of_construct {image : List Word} {m : MachineState} (e : Environment) (hlen : image.length < 65536)
    (hm : construct image = .next m) : Inv ⟨m, e⟩ := by
  rw [construct_of_le hlen.le] at hm
  cases hm
  have htop : (Memory.ofImage image hlen.le).read 0xFFFF = 0 :=
    Memory.read_ofImage_of_ge hlen.le (Nat.le_of_lt_succ hlen)
  exact .inl ((congrArg BitVec.toNat htop).le.trans (Nat.zero_le _))

/-- Settles O4: the invariant at reset is that of a short image. -/
theorem resetStateIsEmptyConstruct : Obligations.ResetStateIsEmptyConstruct := by
  have hreset : construct [] = .next State.reset.machine := rfl
  exact ⟨hreset, rfl, fun _ => rfl, rfl, rfl, inv_of_construct _ (by decide) hreset,
    fun _ _ e hlen hm => inv_of_construct e hlen hm⟩

/-- Settles O5, by extensionality of the memory. -/
theorem statesEqualWhenCellsEqual : Obligations.StatesEqualWhenCellsEqual := by
  refine ⟨fun m m' => MachineState.eq_iff_memRead, fun s t => ?_⟩
  rw [State.eq_iff_machine_channels, MachineState.eq_iff_memRead]

/-- Settles O6: existence by listing the total memory, uniqueness by extensionality. -/
theorem machinesAreTheSpecsPairs : Obligations.MachinesAreTheSpecsPairs := by
  rintro ⟨pc, mem⟩
  have hpair : architectural ⟨pc, Memory.ofFun mem⟩ = ⟨pc, mem⟩ :=
    congrArg (Architectural.mk pc) (funext (Memory.read_ofFun mem))
  refine ⟨_, hpair, fun m' hm' => ?_⟩
  obtain ⟨hpc, hmem⟩ := Architectural.mk.inj (hm'.trans hpair.symm)
  exact MachineState.eq_iff_memRead.mpr ⟨hpc, congrFun hmem⟩

/-- Settles O7, by the canonical form that every memory carries. -/
theorem memoryListsExactlyTheNonzeroCells : Obligations.MemoryListsExactlyTheNonzeroCells :=
  fun m => ⟨m.canonical.1, m.mem_cells_iff⟩

end Sys2Proof.Proofs

/-! PROOFS. What a fetched form says of the three cells at `pc`, and what one `Step` does to the machine and to the two channels, said once. -/

namespace Sys2Proof

/-! ### The decoder, read backwards (30_encoding.md R73) -/

theorem encode_decode (t : Triple) : encode (decode t) = t := by
  obtain ⟨x, y, z⟩ := t
  unfold decode
  split
  · next hx => exact congrArg (Triple.mk · y z) hx.symm
  · split
    · next hy => exact congrArg (Triple.mk x · z) hy.symm
    · rfl

theorem decode_wellFormed (t : Triple) : (decode t).WellFormed = true := by
  unfold decode
  split
  · rfl
  · split <;> simp_all [Instr.WellFormed]

theorem fields_of_decode_input {t : Triple} {b c : Word} (h : decode t = .input b c) : t = ⟨0xFFFF, b, c⟩ :=
  (encode_decode t).symm.trans (congrArg encode h)

theorem fields_of_decode_output {t : Triple} {a c : Word} (h : decode t = .output a c) :
    a ≠ 0xFFFF ∧ t = ⟨a, 0xFFFF, c⟩ := by
  constructor
  · simpa [h, Instr.WellFormed, Config.sentinel] using decode_wellFormed t
  · exact (encode_decode t).symm.trans (congrArg encode h)

theorem fields_of_decode_subleq {t : Triple} {a b c : Word} (h : decode t = .subleq a b c) :
    (a ≠ 0xFFFF ∧ b ≠ 0xFFFF) ∧ t = ⟨a, b, c⟩ := by
  constructor
  · simpa [h, Instr.WellFormed, Config.sentinel] using decode_wellFormed t
  · exact (encode_decode t).symm.trans (congrArg encode h)

/-- R95: the advance, as a sum of numbers. -/
theorem Word.add_three_eq_ofNat (w : Word) : w + 3 = BitVec.ofNat 16 ((w.toNat + 3) % 65536) := by
  bv_omega

namespace Machine

/-- R94: a fetched triple is the three Words at `pc`, `pc +16 1`, `pc +16 2`. -/
theorem MachineState.fetch_eq_iff {m : MachineState} {a b c : Word} :
    m.fetch = ⟨a, b, c⟩ ↔ m.memRead m.pc = a ∧ m.memRead (m.pc + 1) = b ∧ m.memRead (m.pc + 2) = c := by
  simp only [MachineState.fetch, Triple.mk.injEq]

/-! ### One attempt at a channel whose outcome is known -/

theorem exec_input_of_answer {s : State} {v : InputAnswer} (h : s.input.readByte.1 = some v) (b c : Word) :
    exec (.input b c) s = .next ((s.setInput (s.input.took v)).onMachine (inputEffect b (inputWord v))) := by
  rcases exec_input_cases b c s with ⟨w, hw, he⟩ | ⟨ch, hch, -⟩
  · obtain rfl : w = v := by simpa [hw] using h
    exact he
  · simp [hch] at h

/-- R112, R115: a sink that would end a transaction for one byte ends it for the byte of the OUT. -/
theorem exec_output_of_accepts {s : State} {v : Byte} (h : (s.output.writeByte v).1 = true) (a c : Word) :
    exec (.output a c) s =
      .next ((s.setOutput (s.output.presenting (outputByte a s.machine))).onMachine outputEffect) := by
  rw [s.output.writeByte_fst v (outputByte a s.machine)] at h
  rcases exec_output_cases a c s with ⟨-, he⟩ | ⟨ch, hch, -⟩
  · exact he
  · simp [hch] at h

/-! ### `Step` (R97): one attempt that holds, one that does not -/

theorem instructionStep_of_decode {s : State} {i : Instr} (h : decode (fetch s) = i) : instructionStep s = exec i s := by
  rw [instructionStep, h]

theorem step_of_decode {s : State} {i : Instr} (hrun : s.halted = false) (hd : decode (fetch s) = i) : step s = exec i s := by
  rw [step_of_running hrun, hd]

/-- R115: a hold leaves the machine and the records of both channels as they were. -/
theorem instructionStep_of_holds {s : State} (h : s.holds = true) :
    ∃ t, instructionStep s = .next t ∧ t.machine = s.machine ∧ t.input.consumed = s.input.consumed ∧
      t.output.presented = s.output.presented := by
  cases hd : decode (fetch s) with
  | input b c =>
    rcases exec_input_cases b c s with ⟨v, hv, -⟩ | ⟨ch, -, -, hc, he⟩
    · simp [holds_input hd, hv] at h
    · exact ⟨_, (instructionStep_of_decode hd).trans he, rfl, hc, rfl⟩
  | output a c =>
    rcases exec_output_cases a c s with ⟨hw, -⟩ | ⟨ch, -, -, hp, he⟩
    · simp [holds_output hd, hw] at h
    · exact ⟨_, (instructionStep_of_decode hd).trans he, rfl, rfl, hp⟩
  | subleq a b c => simp [holds_subleq hd] at h

/-- R97: without a hold the machine makes `machineStep` with an answer `v`, the byte of that is presented, and the input channel gives `v` to
an IN and nothing to any other form. -/
theorem instructionStep_of_not_holds {s : State} (h : s.holds = false) :
    ∃ t v, instructionStep s = .next t ∧ t.machine = (machineStep (inputWord v) s.machine).1 ∧
      t.output.presented = s.output.presented ++ (machineStep (inputWord v) s.machine).2.toList ∧
      ((fetch s).a = 0xFFFF → s.input.readByte.1 = some v ∧ t.input = s.input.took v) ∧
      ((fetch s).a ≠ 0xFFFF → t.input = s.input) := by
  cases hd : decode (fetch s) with
  | input b c =>
    have ha : (fetch s).a = 0xFFFF := congrArg Triple.a (fields_of_decode_input hd)
    rcases exec_input_cases b c s with ⟨v, hv, he⟩ | ⟨ch, hch, -⟩
    · refine ⟨_, v, (instructionStep_of_decode hd).trans he, ?_, ?_, fun _ => ⟨congrArg Prod.fst hv, rfl⟩, absurd ha⟩ <;>
        simp [machineStep_input hd]
    · simp [holds_input hd, hch] at h
  | output a c =>
    obtain ⟨ha, hf⟩ := fields_of_decode_output hd
    rcases exec_output_cases a c s with ⟨-, he⟩ | ⟨ch, hch, -⟩
    · refine ⟨_, .endOrFailure, (instructionStep_of_decode hd).trans he, ?_, ?_, fun h => absurd h (hf ▸ ha), fun _ => rfl⟩ <;>
        simp [machineStep_output hd]
    · simp [holds_output hd, hch] at h
  | subleq a b c =>
    obtain ⟨⟨ha, -⟩, hf⟩ := fields_of_decode_subleq hd
    refine ⟨_, .endOrFailure, (instructionStep_of_decode hd).trans (exec_subleq_eq a b c s), ?_, ?_,
      fun h => absurd h (hf ▸ ha), fun _ => rfl⟩ <;> simp [machineStep_subleq hd]

/-! ### `machineStep`: what it depends on, and `pc` -/

/-- R97: `ReadByte()` is called for an IN alone, so in any other form its Word takes no part. -/
theorem machineStep_congr {m : MachineState} {v w : Word} (h : m.fetch.a = 0xFFFF → v = w) : machineStep v m = machineStep w m := by
  cases hd : decode m.fetch with
  | input b c => rw [h (congrArg Triple.a (fields_of_decode_input hd))]
  | output a c => rw [machineStep_output hd, machineStep_output hd]
  | subleq a b c => rw [machineStep_subleq hd, machineStep_subleq hd]

/-- R135: a taken branch. -/
theorem machineStep_pc_of_branch {m : MachineState} {a b c : Word} (hd : decode m.fetch = .subleq a b c)
    (hb : branchTaken (m.memRead b - m.memRead a) = true) (v : Word) : (machineStep v m).1.pc = c := by
  rw [machineStep_subleq hd, subleqEffect_pc, if_pos hb]

/-- R95: the advance, in every other case. -/
theorem machineStep_pc_of_no_branch {m : MachineState}
    (hb : ∀ a b c, decode m.fetch = .subleq a b c → branchTaken (m.memRead b - m.memRead a) = false) (v : Word) :
    (machineStep v m).1.pc = m.pc + 3 := by
  cases hd : decode m.fetch with
  | input b c => rw [machineStep_input hd, inputEffect_pc]
  | output a c => rw [machineStep_output hd, outputEffect_pc]
  | subleq a b c => rw [machineStep_subleq hd, subleqEffect_pc, hb a b c hd]; rfl

/-! ### `Step` with the answer given beforehand (R32 (b)) -/

/-- The Word that a Step which does not hold is passed by its input channel; any Word, if it is no IN. -/
def State.Answers (s : State) (v : Word) : Prop := (fetch s).a = 0xFFFF → s.input.readByte.1.map inputWord = some v

theorem exists_answers_of_not_holds {s : State} (h : s.holds = false) : ∃ v, s.Answers v := by
  obtain ⟨_, v, -, -, -, hin, -⟩ := instructionStep_of_not_holds h
  exact ⟨inputWord v, fun ha => by rw [(hin ha).1, Option.map_some]⟩

/-- Whatever Word the input channel answers, the machine and the bytes presented are those of `machineStep` with it. -/
theorem instructionStep_of_answers {s : State} (h : s.holds = false) {v : Word} (hv : s.Answers v) :
    ∃ t, instructionStep s = .next t ∧ t.machine = (machineStep v s.machine).1 ∧
      t.output.presented = s.output.presented ++ (machineStep v s.machine).2.toList := by
  obtain ⟨t, w, ht, hm, hp, hin, -⟩ := instructionStep_of_not_holds h
  have hvw : (fetch s).a = 0xFFFF → v = inputWord w := fun ha => by
    simpa [(hin ha).1] using (hv ha).symm
  rw [machineStep_congr hvw]
  exact ⟨t, ht, hm, hp⟩

end Machine

end Sys2Proof

/-! PROOFS. The statements of 10_state.md about one `Step`: what reaches the machine from its channels, and where `pc` goes. -/

namespace Sys2Proof.Proofs

open Sys2Proof.Machine

/-- Settles O32, by the two things a `Step` can do: hold, or make `machineStep` with the answer. -/
theorem channelsArePassedIn : Obligations.ChannelsArePassedIn := by
  intro s
  cases h : s.holds with
  | true =>
    obtain ⟨t, ht, hm, -⟩ := instructionStep_of_holds h
    exact ⟨t, ht, fun _ => hm, nofun⟩
  | false =>
    obtain ⟨t, w, ht, -⟩ := instructionStep_of_not_holds h
    refine ⟨t, ht, nofun, fun _ v hv => ?_⟩
    obtain ⟨t', ht', hstep⟩ := instructionStep_of_answers h hv
    cases ht.symm.trans ht'
    exact hstep

/-- Settles O33: both Steps are `machineStep` of the same machine and the same Word. -/
theorem onlyTheAnswerReachesTheMachine : Obligations.OnlyTheAnswerReachesTheMachine := by
  intro s s' t t' hm h h' hans ht ht'
  obtain ⟨v, hv⟩ := exists_answers_of_not_holds h
  have hv' : s'.Answers v := by
    intro ha
    have ha : (fetch s).a = 0xFFFF := by rw [fetch, hm]; exact ha
    rw [← hans ha, hv ha]
  obtain ⟨u, hu, hum, hup⟩ := instructionStep_of_answers h hv
  obtain ⟨u', hu', hum', hup'⟩ := instructionStep_of_answers h' hv'
  cases ht.symm.trans hu
  cases ht'.symm.trans hu'
  rw [← hm] at hum' hup'
  exact ⟨hum.trans hum'.symm, _, hup, hup'⟩

/-- Settles O45: without a hold `pc` is the one that `machineStep` leaves. -/
theorem pcMovesOnlyByAdvanceOrBranch : Obligations.PcMovesOnlyByAdvanceOrBranch := by
  intro s t ht
  constructor
  · intro h
    obtain ⟨u, hu, hm, -⟩ := instructionStep_of_holds h
    cases ht.symm.trans hu
    exact congrArg MachineState.pc hm
  · intro h
    obtain ⟨u, v, hu, hm, -⟩ := instructionStep_of_not_holds h
    cases ht.symm.trans hu
    have hpc : t.pc = (machineStep (inputWord v) s.machine).1.pc := congrArg MachineState.pc hm
    refine ⟨fun a b c hd hb => hpc.trans (machineStep_pc_of_branch hd hb _), fun hb => ?_⟩
    rw [hpc, machineStep_pc_of_no_branch hb, Word.add_three_eq_ofNat]

end Sys2Proof.Proofs

/-! PROOFS. 10_state.md R29: an instruction whose operands are its own cells. -/

namespace Sys2Proof.Machine

/-- R29, R136: the own cells of the fetched triple hold its fields. -/
theorem MachineState.memRead_own_cell {m : MachineState} {a b c x y : Word} (hf : m.fetch = ⟨a, b, c⟩)
    (h : x = m.pc ∧ y = a ∨ x = m.pc + 1 ∧ y = b ∨ x = m.pc + 2 ∧ y = c) : m.memRead x = y := by
  obtain ⟨ha, hb, hc⟩ := MachineState.fetch_eq_iff.mp hf
  rcases h with ⟨rfl, rfl⟩ | ⟨rfl, rfl⟩ | ⟨rfl, rfl⟩
  · exact ha
  · exact hb
  · exact hc

/-- R29, R53: what a later fetch from the same address sees of a SUBLEQ's store. -/
theorem subleqEffect_fetch_of_same_pc {m : MachineState} {a b c : Word} (hf : m.fetch = ⟨a, b, c⟩)
    (hpc : (subleqEffect a b c m).pc = m.pc) :
    (subleqEffect a b c m).fetch =
      ⟨if b = m.pc then m.memRead b - m.memRead a else a, if b = m.pc + 1 then m.memRead b - m.memRead a else b,
        if b = m.pc + 2 then m.memRead b - m.memRead a else c⟩ := by
  obtain ⟨ha, hb, hc⟩ := MachineState.fetch_eq_iff.mp hf
  rw [MachineState.fetch_eq_iff, hpc]
  simp only [subleqEffect_memRead, ha, hb, hc, eq_comm (a := b), and_self]

/-- R130 (b), (c), R136 (2): a SUBLEQ whose destination holds `y`. -/
theorem step_subleq_of_minuend {s : State} {a b c y : Word} (hrun : s.halted = false)
    (hd : decode (fetch s) = .subleq a b c) (hy : s.memRead b = y) :
    ∃ t, step s = .next t ∧ t.memRead b = y - s.memRead a ∧ (∀ x, x ≠ b → t.memRead x = s.memRead x) ∧
      t.pc = (if branchTaken (y - s.memRead a) then c else s.pc + 3) ∧
      (t.pc = s.pc → fetch t = ⟨if b = s.pc then y - s.memRead a else a, if b = s.pc + 1 then y - s.memRead a else b,
        if b = s.pc + 2 then y - s.memRead a else c⟩) := by
  subst hy
  refine ⟨_, (step_of_decode hrun hd).trans (exec_subleq_eq a b c s), ?_, fun x hx => ?_, subleqEffect_pc a b c s.machine,
    subleqEffect_fetch_of_same_pc (fields_of_decode_subleq hd).2⟩
  · exact (subleqEffect_memRead a b c s.machine b).trans (if_pos rfl)
  · exact (subleqEffect_memRead a b c s.machine x).trans (if_neg hx)

/-- R113: an IN that is answered. -/
theorem step_input_of_answer {s : State} {b c : Word} {v : InputAnswer} (hrun : s.halted = false)
    (hd : decode (fetch s) = .input b c) (hv : s.input.readByte.1 = some v) :
    ∃ t, step s = .next t ∧ t.memRead b = inputWord v ∧ (∀ x, x ≠ b → t.memRead x = s.memRead x) ∧ t.pc = s.pc + 3 := by
  refine ⟨_, (step_of_decode hrun hd).trans (exec_input_of_answer hv b c), ?_, fun x hx => ?_, rfl⟩
  · exact (inputEffect_memRead b (inputWord v) s.machine b).trans (if_pos rfl)
  · exact (inputEffect_memRead b (inputWord v) s.machine x).trans (if_neg hx)

/-- R114: an OUT whose transaction the sink ends. -/
theorem step_output_of_accepts {s : State} {a c : Word} {v : Byte} (hrun : s.halted = false)
    (hd : decode (fetch s) = .output a c) (hv : (s.output.writeByte v).1 = true) :
    ∃ t, step s = .next t ∧ t.output.presented = s.output.presented ++ [lowByte (s.memRead a)] ∧ t.mem = s.mem ∧
      t.pc = s.pc + 3 :=
  ⟨_, (step_of_decode hrun hd).trans (exec_output_of_accepts hv a c), rfl, rfl, rfl⟩

/-- R114 (2): the byte of an OUT of an own cell is the low byte of that field as fetched. -/
theorem lowByte_own_field {m : MachineState} {a c : Word} {v : Byte} (hd : decode m.fetch = .output a c)
    (h : a = m.pc ∧ v = a.extractLsb' 0 8 ∨ a = m.pc + 1 ∧ v = 0xFF ∨ a = m.pc + 2 ∧ v = c.extractLsb' 0 8) :
    lowByte (m.memRead a) = v := by
  have hf := (fields_of_decode_output hd).2
  have low (w : Word) : lowByte w = w.extractLsb' 0 8 := BitVec.setWidth_eq_extractLsb' (by decide)
  rcases h with ⟨ha, rfl⟩ | ⟨ha, rfl⟩ | ⟨ha, rfl⟩
  · rw [MachineState.memRead_own_cell hf (.inl ⟨ha, rfl⟩), low]
  · rw [MachineState.memRead_own_cell hf (.inr (.inl ⟨ha, rfl⟩))]; decide
  · rw [MachineState.memRead_own_cell hf (.inr (.inr ⟨ha, rfl⟩)), low]

end Sys2Proof.Machine

namespace Sys2Proof.Proofs

open Sys2Proof.Machine

/-- Settles O47: an own cell holds its field as fetched, and the three results are those of the form on that Word. -/
theorem ownFieldsAreLatched : Obligations.OwnFieldsAreLatched := by
  intro s hrun
  refine ⟨fun a b c hd => ?_, fun b c v hd hv _ => step_input_of_answer hrun hd hv, fun a c v hd hv hown => ?_⟩
  · have hf := (fields_of_decode_subleq hd).2
    exact ⟨fun h => MachineState.memRead_own_cell hf (.inl ⟨h, rfl⟩),
      fun h => MachineState.memRead_own_cell hf (.inr (.inl ⟨h, rfl⟩)),
      fun h => MachineState.memRead_own_cell hf (.inr (.inr ⟨h, rfl⟩)),
      fun y hy => step_subleq_of_minuend hrun hd (MachineState.memRead_own_cell hf hy)⟩
  · have hbyte : lowByte (s.memRead a) = v := lowByte_own_field hd hown
    exact hbyte ▸ step_output_of_accepts hrun hd hv

end Sys2Proof.Proofs

/-! PROOFS. The writing of cells as equalities of whole machines (20_memory.md R41), and the one store that a `Step` can make (R50). -/

namespace Sys2Proof.Machine

/-! ### Writes: equalities by extensionality -/

theorem MachineState.memWrite_memWrite_same (m : MachineState) (a v w : Word) :
    (m.memWrite a v).memWrite a w = m.memWrite a w := by
  refine MachineState.eq_iff_memRead.mpr ⟨rfl, fun x => ?_⟩
  by_cases hx : x = a <;> simp [MachineState.memRead_memWrite, hx]

theorem MachineState.memWrite_comm (m : MachineState) {a b : Word} (h : a ≠ b) (v w : Word) :
    (m.memWrite a v).memWrite b w = (m.memWrite b w).memWrite a v := by
  refine MachineState.eq_iff_memRead.mpr ⟨rfl, fun x => ?_⟩
  by_cases hx : x = a
  · simp [MachineState.memRead_memWrite, hx, h]
  · simp [MachineState.memRead_memWrite, hx]

theorem MachineState.memWrite_memRead (m : MachineState) (a : Word) : m.memWrite a (m.memRead a) = m := by
  refine MachineState.eq_iff_memRead.mpr ⟨rfl, fun x => ?_⟩
  by_cases hx : x = a <;> simp [MachineState.memRead_memWrite, hx]

/-! ### One attempt at a channel that does not answer (R115) -/

theorem exec_input_of_hold {s : State} {ch : InputChannel} (h : s.input.readByte = (none, ch)) (b c : Word) :
    exec (.input b c) s = .next (s.setInput ch) := by
  simp only [exec, execInput, h]

theorem exec_output_of_hold {s : State} {a : Word} {ch : OutputChannel}
    (h : s.output.writeByte (outputByte a s.machine) = (false, ch)) (c : Word) :
    exec (.output a c) s = .next (s.setOutput ch) := by
  simp only [exec, execOutput, h]

/-! ### The cycle, read backwards (R93) -/

theorem step_cases {s t : State} (h : step s = .next t) :
    (s.halted = true ∧ t = s) ∨ (s.halted = false ∧ instructionStep s = .next t) := by
  cases hrun : s.halted with
  | true =>
    rw [step_of_halted hrun] at h
    cases h
    exact .inl ⟨rfl, rfl⟩
  | false => exact .inr ⟨rfl, (step_of_running hrun).symm.trans h⟩

/-! ### The store of a `Step` (R50 (3)) -/

/-- `Step` stores the Word `w` in cell `b`: an IN with its answer, or a SUBLEQ with its difference. -/
def State.Stores (s : State) (b w : Word) : Prop :=
  (∃ c v, decode (fetch s) = .input b c ∧ s.input.readByte.1 = some v ∧ w = inputWord v) ∨
  (∃ a c, decode (fetch s) = .subleq a b c ∧ w = s.memRead b - s.memRead a)

theorem instructionStep_memRead_of_stores {s t : State} {b w : Word} (h : s.Stores b w)
    (ht : instructionStep s = .next t) (x : Word) : t.memRead x = if x = b then w else s.memRead x := by
  rcases h with ⟨c, v, hd, hv, rfl⟩ | ⟨a, c, hd, rfl⟩
  · rw [instructionStep_of_decode hd, exec_input_of_answer hv] at ht
    cases ht
    exact inputEffect_memRead b (inputWord v) s.machine x
  · rw [instructionStep_of_decode hd, exec_subleq_eq] at ht
    cases ht
    exact subleqEffect_memRead a b c s.machine x

/-- R114: an OUT, held or not, leaves memory as it was. -/
theorem exec_output_mem {a c : Word} {s t : State} (h : exec (.output a c) s = .next t) : t.mem = s.mem := by
  rcases exec_output_cases a c s with ⟨-, he⟩ | ⟨ch, -, -, -, he⟩ <;> cases he.symm.trans h <;> rfl

/-- R50: a `Step` leaves memory as it was, or makes one store. -/
theorem instructionStep_mem_cases {s t : State} (ht : instructionStep s = .next t) :
    t.mem = s.mem ∨ ∃ b w, s.Stores b w := by
  cases hd : decode (fetch s) with
  | input b c =>
    rcases exec_input_cases b c s with ⟨v, hv, -⟩ | ⟨ch, -, -, -, he⟩
    · exact .inr ⟨b, _, .inl ⟨c, v, hd, congrArg Prod.fst hv, rfl⟩⟩
    · cases ((instructionStep_of_decode hd).trans he).symm.trans ht
      exact .inl rfl
  | output a c => exact .inl (exec_output_mem ((instructionStep_of_decode hd).symm.trans ht))
  | subleq a b c => exact .inr ⟨b, _, .inr ⟨a, c, hd, rfl⟩⟩

/-- R41, R50: a cell that differs after a `Step` is the cell of its store. -/
theorem stores_of_instructionStep_ne {s t : State} {x : Word} (ht : instructionStep s = .next t)
    (hx : t.memRead x ≠ s.memRead x) : s.Stores x (t.memRead x) := by
  rcases instructionStep_mem_cases ht with hmem | ⟨b, w, hst⟩
  · exact absurd (congrArg (·.read x) hmem) hx
  · have hread := instructionStep_memRead_of_stores hst ht x
    by_cases hxb : x = b
    · rwa [hread, if_pos hxb, hxb]
    · exact absurd (hread.trans (if_neg hxb)) hx

theorem stores_of_step_ne {s t : State} {x : Word} (ht : step s = .next t) (hx : t.memRead x ≠ s.memRead x) :
    s.halted = false ∧ s.Stores x (t.memRead x) := by
  rcases step_cases ht with ⟨-, rfl⟩ | ⟨hrun, ht⟩
  · exact absurd rfl hx
  · exact ⟨hrun, stores_of_instructionStep_ne ht hx⟩

/-- R47 (a), (c): the store in cell 0xFFFF is that of an IN. -/
theorem State.Stores.input_of_top {s : State} {w : Word} (h : s.Stores 0xFFFF w) :
    ∃ c v, decode (fetch s) = .input 0xFFFF c ∧ s.input.readByte.1 = some v ∧ w = inputWord v := by
  rcases h with h | ⟨a, c, hd, -⟩
  · exact h
  · exact absurd rfl (fields_of_decode_subleq hd).1.2

/-- R111: a byte zero-extended, or the sentinel. -/
theorem inputWord_le_or_sentinel (v : InputAnswer) : (inputWord v).toNat ≤ 255 ∨ inputWord v = 0xFFFF := by
  cases v with
  | byte n =>
    have hn : n.toNat < 256 := n.isLt
    left
    simp only [inputWord, BitVec.toNat_setWidth]
    omega
  | endOrFailure => exact .inr rfl

end Sys2Proof.Machine

/-! PROOFS. 20_memory.md: which cells a `Step` writes, and with what. -/

namespace Sys2Proof.Proofs

open Sys2Proof.Machine Sys2Proof.Safety

/-- Settles O8: the three equalities are those of the machine, in the same environment. -/
theorem writesOverwriteAndCommute : Obligations.WritesOverwriteAndCommute := by
  intro s a b v w
  have lift {m m' : MachineState} (h : m = m') : (⟨m, s.env⟩ : State) = ⟨m', s.env⟩ := congrArg (State.mk · s.env) h
  exact ⟨lift (s.machine.memWrite_memWrite_same a v w), fun h => lift (s.machine.memWrite_comm h v w),
    lift (s.machine.memWrite_memRead a)⟩

/-- Settles O53: a cell that differs is the cell of the store. -/
theorem stepWritesOnlyTheNamedCell : Obligations.StepWritesOnlyTheNamedCell := by
  intro s t x ht hx
  obtain ⟨-, ⟨c, v, hd, -⟩ | ⟨a, c, hd, -⟩⟩ := stores_of_step_ne ht hx
  · exact ⟨(congrArg Triple.b (fields_of_decode_input hd)).symm, .inl ⟨c, hd⟩⟩
  · exact ⟨(congrArg Triple.b (fields_of_decode_subleq hd).2).symm, .inr ⟨a, c, hd⟩⟩

/-- Settles O54: a store in cell 0xFFFF is that of an IN. -/
theorem topCellWrittenOnlyByInput : Obligations.TopCellWrittenOnlyByInput := by
  intro s t ht hx
  obtain ⟨hrun, hst⟩ := stores_of_step_ne ht hx
  obtain ⟨c, v, hd, hv, hw⟩ := hst.input_of_top
  have hf := fields_of_decode_input hd
  have hholds : s.holds = false := by rw [holds_input hd, hv]; rfl
  exact ⟨hrun, hholds, congrArg Triple.a hf, congrArg Triple.b hf, v, hv, hw⟩

/-- R47, R111: `Step` keeps the invariant: cell 0xFFFF is as it was, or holds the Word of an answer. -/
theorem inv_of_instructionStep {s t : State} (hs : Inv s) (ht : instructionStep s = .next t) : Inv t := by
  by_cases hx : t.memRead 0xFFFF = s.memRead 0xFFFF
  · rwa [Safety.Inv, hx]
  · obtain ⟨-, v, -, -, hw⟩ := (stores_of_instructionStep_ne ht hx).input_of_top
    rw [Safety.Inv, hw]
    exact inputWord_le_or_sentinel v

/-- Settles O51: a halted machine's cycle changes nothing, a running one's is `Step`. -/
theorem stepKeepsInputWordInTopCell : Obligations.StepKeepsInputWordInTopCell := by
  intro s t hs
  refine ⟨fun ht => ?_, inv_of_instructionStep hs⟩
  rcases step_cases ht with ⟨-, rfl⟩ | ⟨-, ht⟩
  · exact hs
  · exact inv_of_instructionStep hs ht

/-- Settles O46: the next fetch reads the memory that the store left. -/
theorem nextFetchSeesTheStore : Obligations.NextFetchSeesTheStore := by
  intro s t ht hrun _ b w h
  have hst : s.Stores b w := by
    rcases h with ⟨⟨a, c, hd⟩, rfl⟩ | h
    · have ha : (fetch s).a = a := congrArg Triple.a (fields_of_decode_subleq hd).2
      exact .inr ⟨a, c, hd, by rw [ha]⟩
    · exact .inl h
  have hread : t.memRead b = w :=
    (instructionStep_memRead_of_stores hst ((step_of_running hrun).symm.trans ht) b).trans (if_pos rfl)
  refine ⟨?_, ?_, ?_⟩ <;> rintro rfl <;> exact hread

end Sys2Proof.Proofs

/-! PROOFS. 20_memory.md R47, 40_sequencer.md R98: under `Run` nothing depends on cell 0xFFFF. -/

namespace Sys2Proof.Safety

open Sys2Proof.Machine

/-- The two machines have the same `pc`, and the same Word in every cell but cell 0xFFFF. -/
def MachinesAgreeBelowTop (m m' : MachineState) : Prop :=
  m.pc = m'.pc ∧ ∀ x : Word, x ≠ 0xFFFF → m.memRead x = m'.memRead x

theorem agreeBelowTop_iff {s t : State} :
    AgreeBelowTop s t ↔ MachinesAgreeBelowTop s.machine t.machine ∧ s.env = t.env := by
  obtain ⟨m, i, o⟩ := s
  obtain ⟨m', i', o'⟩ := t
  simp only [AgreeBelowTop, MachinesAgreeBelowTop, Environment.mk.injEq]
  tauto

section Effects

variable {m m' : MachineState} (h : MachinesAgreeBelowTop m m')
include h

theorem MachinesAgreeBelowTop.halted_eq : m.halted = m'.halted := congrArg BitVec.msb h.1

/-- R98: a running machine fetches from no address above 0x8001. -/
theorem MachinesAgreeBelowTop.fetch_eq (hrun : m.halted = false) : m.fetch = m'.fetch := by
  obtain ⟨hpc, hmem⟩ := h
  have hlow : m.pc.toNat < 32768 := by simpa [MachineState.halted, BitVec.msb_eq_decide] using hrun
  have h0 : m.pc ≠ 0xFFFF := by bv_omega
  have h1 : m.pc + 1 ≠ 0xFFFF := by bv_omega
  have h2 : m.pc + 2 ≠ 0xFFFF := by bv_omega
  simp only [MachineState.fetch, ← hpc, hmem _ h0, hmem _ h1, hmem _ h2]

theorem MachinesAgreeBelowTop.inputEffect (b v : Word) :
    MachinesAgreeBelowTop (inputEffect b v m) (inputEffect b v m') := by
  obtain ⟨hpc, hmem⟩ := h
  refine ⟨congrArg (· + 3) hpc, fun x hx => ?_⟩
  rw [inputEffect_memRead, inputEffect_memRead, hmem x hx]

theorem MachinesAgreeBelowTop.outputEffect : MachinesAgreeBelowTop (outputEffect m) (outputEffect m') :=
  ⟨congrArg (· + 3) h.1, h.2⟩

theorem MachinesAgreeBelowTop.outputByte_eq {a : Word} (ha : a ≠ 0xFFFF) : outputByte a m = outputByte a m' :=
  congrArg lowByte (h.2 a ha)

theorem MachinesAgreeBelowTop.subleqEffect {a b : Word} (ha : a ≠ 0xFFFF) (hb : b ≠ 0xFFFF) (c : Word) :
    MachinesAgreeBelowTop (subleqEffect a b c m) (subleqEffect a b c m') := by
  obtain ⟨hpc, hmem⟩ := h
  refine ⟨?_, fun x hx => ?_⟩
  · rw [subleqEffect_pc, subleqEffect_pc, hmem a ha, hmem b hb, hpc]
  · rw [subleqEffect_memRead, subleqEffect_memRead, hmem a ha, hmem b hb, hmem x hx]

/-- R47 (a), (b): no form that a triple decodes to reads cell 0xFFFF as an operand. -/
theorem MachinesAgreeBelowTop.exec {i : Instr} (hi : i.WellFormed = true) {e : Environment} {t : State}
    (ht : exec i ⟨m, e⟩ = .next t) :
    ∃ n', exec i ⟨m', e⟩ = .next ⟨n', t.env⟩ ∧ MachinesAgreeBelowTop t.machine n' := by
  cases i with
  | input b c =>
    rcases exec_input_cases b c ⟨m, e⟩ with ⟨v, hv, he⟩ | ⟨ch, hch, -, -, he⟩ <;> cases he.symm.trans ht
    · exact ⟨_, exec_input_of_answer (s := ⟨m', e⟩) (congrArg Prod.fst hv) b c, h.inputEffect b (inputWord v)⟩
    · exact ⟨m', exec_input_of_hold (s := ⟨m', e⟩) hch b c, h⟩
  | output a c =>
    have ha : a ≠ 0xFFFF := by simpa [Instr.WellFormed, Config.sentinel] using hi
    have hbyte := h.outputByte_eq ha
    rcases exec_output_cases a c ⟨m, e⟩ with ⟨hw, he⟩ | ⟨ch, hch, -, -, he⟩ <;> cases he.symm.trans ht
    · refine ⟨_, (exec_output_of_accepts (s := ⟨m', e⟩) (congrArg Prod.fst hw) a c).trans ?_, h.outputEffect⟩
      rw [← hbyte]; rfl
    · exact ⟨m', exec_output_of_hold (s := ⟨m', e⟩) (hbyte ▸ hch) c, h⟩
  | subleq a b c =>
    obtain ⟨ha, hb⟩ : a ≠ 0xFFFF ∧ b ≠ 0xFFFF := by simpa [Instr.WellFormed, Config.sentinel] using hi
    cases (exec_subleq_eq a b c _).symm.trans ht
    exact ⟨_, exec_subleq_eq a b c _, h.subleqEffect ha hb c⟩

end Effects

/-- One cycle from two states that agree below the top cell. -/
theorem AgreeBelowTop.step {s s' t : State} (h : AgreeBelowTop s s') (ht : step s = .next t) :
    ∃ t', step s' = .next t' ∧ AgreeBelowTop t t' := by
  obtain ⟨m, e⟩ := s
  obtain ⟨m', e'⟩ := s'
  obtain ⟨hm, rfl : e = e'⟩ := agreeBelowTop_iff.mp h
  rcases step_cases ht with ⟨hhalt, rfl⟩ | ⟨hrun, ht⟩
  · exact ⟨_, step_of_halted (hm.halted_eq.symm.trans hhalt), h⟩
  · obtain ⟨n', hn', hagree⟩ := hm.exec (decode_wellFormed m.fetch) ht
    rw [hm.fetch_eq hrun] at hn'
    exact ⟨_, (step_of_running (hm.halted_eq.symm.trans hrun)).trans hn', agreeBelowTop_iff.mpr ⟨hagree, rfl⟩⟩

/-- Of any machine behind the host's interface: a run that ends in a next state began with a step that did. -/
theorem core_run_succ_eq_next {M : Host.Core} {n : Nat} {s t : M.State} (h : M.run (n + 1) s = .next t) :
    ∃ u, M.step s = .next u ∧ M.run n u = .next t := by
  cases hu : M.step s with
  | next u => exact ⟨u, rfl, (core_run_succ M hu n).symm.trans h⟩
  | fault r => simp [Host.Core.run, hu] at h
  | refused r => simp [Host.Core.run, hu] at h

end Sys2Proof.Safety

namespace Sys2Proof.Proofs

open Sys2Proof.Machine Sys2Proof.Safety

/-- Settles O55, by induction on the number of cycles: one cycle keeps the agreement. -/
theorem topCellIsInvisibleUnderRun : Obligations.TopCellIsInvisibleUnderRun := by
  intro n
  induction n with
  | zero =>
    intro s s' t h ht
    cases ht
    exact ⟨s', rfl, h⟩
  | succ n ih =>
    intro s s' t h ht
    obtain ⟨u, hu, hrest⟩ := core_run_succ_eq_next ht
    obtain ⟨u', hu', hagree⟩ := h.step hu
    obtain ⟨t', ht', hfinal⟩ := ih u u' t hagree hrest
    exact ⟨t', (cycles_succ hu' n).trans ht', hfinal⟩

end Sys2Proof.Proofs

/-! PROOFS. 30_encoding.md: the decoder form by form (R73), the instruction value and its fields (R71), the masks of the opcode table, and the
number of triples of each form (R74). -/

namespace Sys2Proof

/-! ### The decoder, form by form (R73) -/

section Decoder

variable {t : Triple}

theorem decode_of_a_sentinel (ha : t.a = 0xFFFF) : decode t = .input t.b t.c := if_pos ha

theorem decode_of_b_sentinel (ha : t.a ≠ 0xFFFF) (hb : t.b = 0xFFFF) : decode t = .output t.a t.c :=
  (if_neg ha).trans (if_pos hb)

theorem decode_of_no_sentinel (ha : t.a ≠ 0xFFFF) (hb : t.b ≠ 0xFFFF) : decode t = .subleq t.a t.b t.c :=
  (if_neg ha).trans (if_neg hb)

end Decoder

theorem Instr.wellFormed_output_iff {a c : Word} : (Instr.output a c).WellFormed = true ↔ a ≠ 0xFFFF := bne_iff_ne

theorem Instr.wellFormed_subleq_iff {a b c : Word} :
    (Instr.subleq a b c).WellFormed = true ↔ a ≠ 0xFFFF ∧ b ≠ 0xFFFF := by
  simp [Instr.WellFormed, Config.sentinel]

/-- R73, R78: a well-formed instruction is the one its encoding selects. -/
theorem decode_encode {i : Instr} (h : i.WellFormed = true) : decode (encode i) = i := by
  cases i with
  | input b c => exact decode_of_a_sentinel rfl
  | output a c => exact decode_of_b_sentinel (Instr.wellFormed_output_iff.mp h) rfl
  | subleq a b c =>
    obtain ⟨ha, hb⟩ := Instr.wellFormed_subleq_iff.mp h
    exact decode_of_no_sentinel ha hb

/-- R75: two triples that decode to the same instruction are the same. -/
theorem decode_injective : Function.Injective decode := Function.LeftInverse.injective encode_decode

/-! ### The instruction value (R71) -/

theorem Triple.value_toNat (t : Triple) : t.value.toNat = t.a.toNat * 2 ^ 32 + t.b.toNat * 2 ^ 16 + t.c.toNat := by
  have hab : (t.a ++ t.b).toNat = t.a.toNat * 2 ^ 16 + t.b.toNat := by
    rw [BitVec.toNat_append, ← Nat.shiftLeft_add_eq_or_of_lt t.b.isLt, Nat.shiftLeft_eq]
  have habc : t.value.toNat = (t.a ++ t.b).toNat * 2 ^ 16 + t.c.toNat := by
    rw [Triple.value, BitVec.toNat_append, ← Nat.shiftLeft_add_eq_or_of_lt t.c.isLt, Nat.shiftLeft_eq]
  rw [habc, hab]
  ring

theorem tripleOfValue_value (t : Triple) : tripleOfValue t.value.toNat = t := by
  obtain ⟨a, b, c⟩ := t
  simp only [tripleOfValue, Triple.value_toNat, Triple.mk.injEq, ← BitVec.toNat_inj, BitVec.toNat_ofNat]
  omega

theorem Triple.value_injective : Function.Injective Triple.value := fun t u h => by
  rw [← tripleOfValue_value t, h, tripleOfValue_value]

/-- A value has no bits at and above bit 48, so the decoder of the table reads the triple itself. -/
theorem tripleOfValue_value_mod (t : Triple) : tripleOfValue (t.value.toNat % 2 ^ 48) = t := by
  rw [Nat.mod_eq_of_lt t.value.isLt, tripleOfValue_value]

theorem decodeTableWord_value (t : Triple) : decodeTableWord 48 t.value.toNat = some (decode t) := by
  rw [decodeTableWord, tripleOfValue_value_mod]

/-- A field of 16 bits, from bit `lo` of the value up, as a quotient of the value. -/
theorem Triple.value_extractLsb_toNat (t : Triple) (lo : Nat) :
    (t.value.extractLsb (lo + 15) lo).toNat =
      (t.a.toNat * 2 ^ 32 + t.b.toNat * 2 ^ 16 + t.c.toNat) / 2 ^ lo % 2 ^ 16 := by
  rw [BitVec.extractLsb_toNat, Triple.value_toNat, Nat.shiftRight_eq_div_pow, Nat.add_sub_cancel_left]

theorem Triple.value_extractLsb (t : Triple) :
    t.value.extractLsb 47 32 = t.a ∧ t.value.extractLsb 31 16 = t.b ∧ t.value.extractLsb 15 0 = t.c := by
  have ha := t.a.isLt
  have hb := t.b.isLt
  have hc := t.c.isLt
  refine ⟨BitVec.eq_of_toNat_eq ?_, BitVec.eq_of_toNat_eq ?_, BitVec.eq_of_toNat_eq ?_⟩
  · exact (t.value_extractLsb_toNat 32).trans (by omega)
  · exact (t.value_extractLsb_toNat 16).trans (by omega)
  · exact (t.value_extractLsb_toNat 0).trans (by omega)

/-! ### The masks of the opcode table (R73) -/

/-- A mask on the value is a mask on each field. -/
theorem Triple.value_and_value (t u : Triple) :
    t.value &&& u.value = (Triple.mk (t.a &&& u.a) (t.b &&& u.b) (t.c &&& u.c)).value :=
  BitVec.and_append.trans (congrArg (· ++ (t.c &&& u.c)) BitVec.and_append)

theorem Triple.value_fits_iff (t u : Triple) :
    t.value &&& u.value = u.value ↔ t.a &&& u.a = u.a ∧ t.b &&& u.b = u.b ∧ t.c &&& u.c = u.c := by
  rw [Triple.value_and_value, Triple.value_injective.eq_iff]
  cases u
  simp only [Triple.mk.injEq]

theorem Word.and_sentinel_eq_iff (w : Word) : w &&& Config.sentinel = Config.sentinel ↔ w = Config.sentinel :=
  Eq.congr_left BitVec.and_allOnes

theorem Triple.fits_input_iff (t : Triple) : t.value &&& 0xFFFF00000000 = 0xFFFF00000000 ↔ t.a = Config.sentinel := by
  calc
    _ ↔ t.a &&& Config.sentinel = Config.sentinel ∧ t.b &&& 0 = 0 ∧ t.c &&& 0 = 0 := t.value_fits_iff ⟨Config.sentinel, 0, 0⟩
    _ ↔ t.a = Config.sentinel := by simp [Word.and_sentinel_eq_iff]

theorem Triple.fits_output_iff (t : Triple) : t.value &&& 0x0000FFFF0000 = 0x0000FFFF0000 ↔ t.b = Config.sentinel := by
  calc
    _ ↔ t.a &&& 0 = 0 ∧ t.b &&& Config.sentinel = Config.sentinel ∧ t.c &&& 0 = 0 := t.value_fits_iff ⟨0, Config.sentinel, 0⟩
    _ ↔ t.b = Config.sentinel := by simp [Word.and_sentinel_eq_iff]

/-- The row that is selected, by the conditions of the priority rule. -/
theorem selectRow_value (t : Triple) :
    selectRow t.value =
      if t.a = Config.sentinel then some ⟨"IN", 0xFFFF00000000, 0xFFFF00000000⟩
      else if t.b = Config.sentinel then some ⟨"OUT", 0x0000FFFF0000, 0x0000FFFF0000⟩
      else some ⟨"SUBLEQ", 0, 0⟩ := by
  have input_row := beq_iff_eq.trans t.fits_input_iff
  have output_row := beq_iff_eq.trans t.fits_output_iff
  have subleq_row : (t.value &&& 0 == 0) = true := beq_iff_eq.mpr BitVec.and_zero
  unfold selectRow opcodeTable
  split_ifs with ha hb
  · exact List.find?_cons_of_pos (input_row.mpr ha)
  · rw [List.find?_cons_of_neg]
    · exact List.find?_cons_of_pos (output_row.mpr hb)
    · exact mt input_row.mp ha
  · rw [List.find?_cons_of_neg, List.find?_cons_of_neg]
    · exact List.find?_cons_of_pos subleq_row
    · exact mt output_row.mp hb
    · exact mt input_row.mp ha

/-- R73, by name. -/
theorem mnemonic_decode (t : Triple) :
    (decode t).mnemonic = if t.a = Config.sentinel then "IN" else if t.b = Config.sentinel then "OUT" else "SUBLEQ" := by
  unfold decode
  split_ifs <;> rfl

/-- The first row that fits is the row of the decoded form. -/
theorem selectRow_mnemonic (t : Triple) : (selectRow t.value).map (fun row => row.mnemonic) = some (decode t).mnemonic := by
  rw [selectRow_value, mnemonic_decode]
  split_ifs <;> rfl

/-! ### How many triples (R74) -/

/-- A triple with a condition on `a` and one on `b` is two such Words and a free Word. -/
def Triple.fieldsEquiv (p q : Word → Prop) : { t : Triple // p t.a ∧ q t.b } ≃ ({ a // p a } × { b // q b }) × Word where
  toFun t := ((⟨t.1.a, t.2.1⟩, ⟨t.1.b, t.2.2⟩), t.1.c)
  invFun f := ⟨⟨f.1.1, f.1.2, f.2⟩, f.1.1.2, f.1.2.2⟩
  left_inv _ := rfl
  right_inv _ := rfl

theorem Word.card : Nat.card Word = 2 ^ 16 :=
  (Nat.card_congr BitVec.equivFin.toEquiv).trans (Nat.card_fin _)

theorem Word.card_true : Nat.card { _w : Word // True } = 2 ^ 16 :=
  (Nat.card_congr (Equiv.Set.univ Word)).trans Word.card

theorem Word.card_eq (v : Word) : Nat.card { w : Word // w = v } = 1 := Nat.card_unique

theorem Word.card_ne (v : Word) : Nat.card { w : Word // w ≠ v } = 2 ^ 16 - 1 := by
  rw [Nat.card_eq_fintype_card, Fintype.card_subtype_compl, Fintype.card_subtype_eq, ← Nat.card_eq_fintype_card, Word.card]

/-- Where a property of triples is one condition on `a` and one on `b`, the triples that have it are counted by their Words. -/
theorem Triple.card_of_fields {r : Triple → Prop} (p q : Word → Prop) (h : ∀ t, r t ↔ p t.a ∧ q t.b) :
    Nat.card { t // r t } = Nat.card { a // p a } * Nat.card { b // q b } * 2 ^ 16 := by
  rw [Nat.card_congr ((Equiv.subtypeEquivRight h).trans (Triple.fieldsEquiv p q)), Nat.card_prod, Nat.card_prod, Word.card]

theorem Triple.card : Nat.card Triple = 2 ^ 48 := by
  have h := Triple.card_of_fields (r := fun _ => True) (fun _ => True) (fun _ => True) fun _ => by simp
  rw [Word.card_true] at h
  rw [← Nat.card_congr (Equiv.Set.univ Triple)]
  exact h

theorem mnemonic_decode_eq_in (t : Triple) : (decode t).mnemonic = "IN" ↔ t.a = Config.sentinel := by
  rw [mnemonic_decode]
  split_ifs with ha hb <;> simp [ha]

theorem mnemonic_decode_eq_out (t : Triple) :
    (decode t).mnemonic = "OUT" ↔ t.a ≠ Config.sentinel ∧ t.b = Config.sentinel := by
  rw [mnemonic_decode]
  by_cases ha : t.a = Config.sentinel <;> by_cases hb : t.b = Config.sentinel <;> simp [ha, hb]

theorem mnemonic_decode_eq_subleq (t : Triple) :
    (decode t).mnemonic = "SUBLEQ" ↔ t.a ≠ Config.sentinel ∧ t.b ≠ Config.sentinel := by
  rw [mnemonic_decode]
  by_cases ha : t.a = Config.sentinel <;> by_cases hb : t.b = Config.sentinel <;> simp [ha, hb]

end Sys2Proof

namespace Sys2Proof.Proofs

/-- Settles O9, form by form: a well-formed instruction is the one that its encoding selects, and the value gives the encoding back. -/
theorem decodeEncodeRoundTrip : Obligations.DecodeEncodeRoundTrip := by
  intro i h
  refine ⟨decode_encode h, ?_⟩
  rw [decodeTableWord_value, decode_encode h]

/-- Settles O10: `encode` is a left inverse of `decode`. -/
theorem everyTripleIsLegal : Obligations.EveryTripleIsLegal :=
  fun t => ⟨decode_wellFormed t, encode_decode t, fun _ h => decode_injective h⟩

/-- Settles O11: a mask of the table on the value is a mask on one field. -/
theorem decoderFollowsPriority : Obligations.DecoderFollowsPriority :=
  fun t => ⟨decode_of_a_sentinel, decode_of_b_sentinel, decode_of_no_sentinel, selectRow_mnemonic t,
    and_congr t.fits_input_iff t.fits_output_iff⟩

/-- Settles O12: the value as a sum of numbers, from which its bit fields and the reading back follow. -/
theorem instructionValueFields : Obligations.InstructionValueFields := by
  intro t
  obtain ⟨ha, hb, hc⟩ := t.value_extractLsb
  exact ⟨t.value_toNat, ha, hb, hc, tripleOfValue_value t⟩

/-- Settles O13: each form is one condition on `a` and one on `b`. -/
theorem encodingCountsPerForm : Obligations.EncodingCountsPerForm := by
  refine ⟨?_, ?_, ?_, ?_⟩
  · rw [Triple.card_of_fields (· = Config.sentinel) (fun _ => True) fun t => by simp [mnemonic_decode_eq_in], Word.card_eq,
      Word.card_true, Nat.one_mul, ← Nat.pow_add]
  · rw [Triple.card_of_fields (· ≠ Config.sentinel) (· = Config.sentinel) mnemonic_decode_eq_out, Word.card_ne, Word.card_eq,
      Nat.mul_one]
  · rw [Triple.card_of_fields (· ≠ Config.sentinel) (· ≠ Config.sentinel) mnemonic_decode_eq_subleq, Word.card_ne, sq]
  · rw [Triple.card]

/-- Settles O14: the fields of each sample are compared with the sentinel. -/
theorem decodeSampleTriples : Obligations.DecodeSampleTriples := by
  unfold Obligations.DecodeSampleTriples
  decide

end Sys2Proof.Proofs

/-! PROOFS. 30_encoding.md: what the pseudo-instructions do (R79), the ignored field `c` (R75), and an instruction placed where the next step
fetches it (R70, R71). -/

namespace Sys2Proof.Machine

/-! ### A SUBLEQ whose subtrahend is its minuend, or is 0 (R79) -/

/-- R130 with the whole result of a SUBLEQ that `exec` runs. -/
theorem exec_subleq_result (a b c : Word) (s : State) :
    ∃ t, exec (.subleq a b c) s = .next t ∧
      t.pc = (if branchTaken (s.memRead b - s.memRead a) then c else s.pc + 3) ∧
      t.memRead b = s.memRead b - s.memRead a ∧ ∀ x, x ≠ b → t.memRead x = s.memRead x :=
  ⟨_, exec_subleq_eq a b c s, subleqEffect_pc a b c s.machine,
    (subleqEffect_memRead a b c s.machine b).trans (if_pos rfl),
    fun x hx => (subleqEffect_memRead a b c s.machine x).trans (if_neg hx)⟩

theorem branchTaken_zero : branchTaken 0 = true := rfl

theorem branchTaken_iff (r : Word) : branchTaken r = true ↔ r = 0 ∨ r.msb = true := by
  simp [branchTaken, or_comm]

/-- R79 (a): a cell subtracted from itself is cleared, and the branch is taken. -/
theorem exec_subleq_same (a c : Word) (s : State) :
    ∃ t, exec (.subleq a a c) s = .next t ∧ t.pc = c ∧ t.memRead a = 0 ∧ ∀ x, x ≠ a → t.memRead x = s.memRead x := by
  obtain ⟨t, ht, hpc, hcell, hframe⟩ := exec_subleq_result a a c s
  rw [BitVec.sub_self] at hpc hcell
  exact ⟨t, ht, hpc.trans (if_pos branchTaken_zero), hcell, hframe⟩

/-- R79 (d), (e): with the next instruction as its target, a SUBLEQ goes on there whether it branches or not. -/
theorem exec_subleq_next (a b : Word) (s : State) :
    ∃ t, exec (.subleq a b (s.pc + 3)) s = .next t ∧ t.pc = s.pc + 3 ∧ t.memRead b = s.memRead b - s.memRead a ∧
      ∀ x, x ≠ b → t.memRead x = s.memRead x := by
  obtain ⟨t, ht, hpc, hcell, hframe⟩ := exec_subleq_result a b (s.pc + 3) s
  exact ⟨t, ht, hpc.trans (ite_self _), hcell, hframe⟩

/-- R79 (f): a subtrahend of 0 leaves every cell as it was, and the test is on the cell of `b`. -/
theorem exec_subleq_of_zero_subtrahend {s : State} {z : Word} (hz : s.memRead z = 0) (b c : Word) :
    ∃ t, exec (.subleq z b c) s = .next t ∧ t.pc = (if branchTaken (s.memRead b) then c else s.pc + 3) ∧
      ∀ x, t.memRead x = s.memRead x := by
  obtain ⟨t, ht, hpc, hcell, hframe⟩ := exec_subleq_result z b c s
  have hdiff : s.memRead b - s.memRead z = s.memRead b := by rw [hz]; exact BitVec.sub_zero _
  rw [hdiff] at hpc hcell
  refine ⟨t, ht, hpc, fun x => ?_⟩
  by_cases hx : x = b
  · rw [hx, hcell]
  · exact hframe x hx

/-- R79 (b), (c): a zero cell subtracted from itself branches, and leaves every cell as it was. -/
theorem exec_subleq_zero_cell {s : State} {z : Word} (hz : s.memRead z = 0) (c : Word) :
    ∃ t, exec (.subleq z z c) s = .next t ∧ t.pc = c ∧ ∀ x, t.memRead x = s.memRead x := by
  obtain ⟨t, ht, hpc, hframe⟩ := exec_subleq_of_zero_subtrahend hz z c
  rw [hz] at hpc
  exact ⟨t, ht, hpc, hframe⟩

/-! ### An instruction placed at `pc` -/

/-- Three neighbouring cells are three different cells, so each reads as what was written to it. -/
theorem MachineState.fetch_writeTriple (m : MachineState) (a b c : Word) :
    (((m.memWrite m.pc a).memWrite (m.pc + 1) b).memWrite (m.pc + 2) c).fetch = ⟨a, b, c⟩ := by
  simp [MachineState.fetch_eq_iff, MachineState.memRead_memWrite]

/-- R91: the state in which `placeTriple` stores its triple is running. -/
theorem State.placeTriple_halted (s : State) (t : Triple) : (s.placeTriple t).halted = false := by
  unfold State.placeTriple
  cases h : s.halted with
  | true => exact MachineState.halted_of_pc_eq_zero rfl
  | false => exact h

theorem State.fetch_placeTriple (s : State) (t : Triple) : fetch (s.placeTriple t) = t :=
  MachineState.fetch_writeTriple (if s.halted then s.warmReset else s).machine t.a t.b t.c

theorem State.memRead_placeTriple {s : State} (h : s.halted = false) (t : Triple) {x : Word} (h0 : x ≠ s.pc)
    (h1 : x ≠ s.pc + 1) (h2 : x ≠ s.pc + 2) : (s.placeTriple t).memRead x = s.memRead x := by
  have hplace : (s.placeTriple t).machine =
      ((s.machine.memWrite s.pc t.a).memWrite (s.pc + 1) t.b).memWrite (s.pc + 2) t.c := by
    simp [State.placeTriple, h]
  simp only [State.memRead, hplace, MachineState.memRead_memWrite, if_neg h0, if_neg h1, if_neg h2]

/-- R71: the value of a triple places that triple. -/
theorem State.withFetchWord_value (s : State) (t : Triple) : s.withFetchWord 48 t.value.toNat = s.placeTriple t := by
  rw [State.withFetchWord, tripleOfValue_value_mod]

end Sys2Proof.Machine

namespace Sys2Proof.Proofs

open Sys2Proof.Machine

/-- Settles O37: CLR subtracts a cell from itself, SUB and NOP branch to where they advance, and the other three subtract a 0. -/
theorem pseudoInstructionEffects : Obligations.PseudoInstructionEffects := by
  intro s z a b c hz ha hb
  have wf {x y p : Word} (hx : x ≠ 0xFFFF) (hy : y ≠ 0xFFFF) : (Instr.subleq x y p).WellFormed = true :=
    Instr.wellFormed_subleq_iff.mpr ⟨hx, hy⟩
  refine ⟨exec_subleq_same a c s, exec_subleq_next a b s, fun hzero => ⟨exec_subleq_zero_cell hzero c, ?halt,
    exec_subleq_zero_cell hzero (s.pc + 3), ?blez⟩, wf ha ha, wf hz hz, wf hz hz, wf ha hb, wf hz hz, wf hz hb⟩
  case halt =>
    obtain ⟨t, ht, hpc, hframe⟩ := exec_subleq_zero_cell hzero 0x8000
    exact ⟨t, ht, hpc, congrArg BitVec.msb hpc, hframe⟩
  case blez =>
    obtain ⟨t, ht, hpc, hframe⟩ := exec_subleq_of_zero_subtrahend hzero b c
    simp only [branchTaken_iff] at hpc
    exact ⟨t, ht, hframe, fun h => hpc.trans (if_pos h), fun h => hpc.trans (if_neg h)⟩

/-- Settles O49: the placed state is running and fetches the triple. -/
theorem placedInstructionRunsNext : Obligations.PlacedInstructionRunsNext := by
  intro s t
  rw [State.withFetchWord_value]
  refine ⟨step_of_decode (s.placeTriple_halted t) ?_, fun hrun x h0 h1 h2 => State.memRead_placeTriple hrun t h0 h1 h2⟩
  rw [State.fetch_placeTriple]

/-- Settles O20: neither an IN nor an OUT reads its field `c`. -/
theorem inputAndOutputIgnoreC : Obligations.InputAndOutputIgnoreC := by
  intro a b c c' s h
  by_cases ha : a = 0xFFFF
  · rw [decode_of_a_sentinel ha, decode_of_a_sentinel ha]
    rfl
  · have hb : b = 0xFFFF := h.resolve_left ha
    rw [decode_of_b_sentinel ha hb, decode_of_b_sentinel ha hb]
    rfl

end Sys2Proof.Proofs

/-! PROOFS. 40_sequencer.md: the phase as a range of `pc`, that every attempt has a next state, where a run ends, and the pseudocode of R97
as `machineStep`. -/

namespace Sys2Proof

/-- R11, R94: a sum of Words, as a sum of numbers modulo 65536. -/
theorem Word.add_eq_ofNat (w v : Word) : w + v = BitVec.ofNat 16 ((w.toNat + v.toNat) % 65536) :=
  BitVec.eq_of_toNat_eq (by simp)

/-- R101: the three addresses of the lower half from which the advance reaches the upper half. -/
theorem Word.add_three_upper_cases {w : Word} (hlow : w.toNat < 0x8000) (hup : 0x8000 ≤ (w + 3).toNat) :
    w = 0x7FFD ∧ w + 3 = 0x8000 ∨ w = 0x7FFE ∧ w + 3 = 0x8001 ∨ w = 0x7FFF ∧ w + 3 = 0x8002 := by
  bv_omega

namespace Machine

/-! ### The phase (R91, R93) -/

theorem MachineState.halted_iff (m : MachineState) : m.halted = true ↔ 0x8000 ≤ m.pc.toNat := by
  simp [MachineState.halted, BitVec.msb_eq_decide]

theorem MachineState.halted_eq_false_iff (m : MachineState) : m.halted = false ↔ m.pc.toNat < 0x8000 := by
  simp [MachineState.halted, BitVec.msb_eq_decide]

theorem MachineState.halted_eq_getLsbD (m : MachineState) : m.halted = m.pc.getLsbD 15 := BitVec.msb_eq_getLsbD_last _

/-! ### The branch test and the low byte, bit by bit (R132, R114) -/

theorem branchTaken_iff_getLsbD (r : Word) : branchTaken r = true ↔ r.getLsbD 15 = true ∨ r = 0 := by
  rw [branchTaken_iff, BitVec.msb_eq_getLsbD_last, or_comm]

theorem lowByte_eq_extractLsb' (x : Word) : lowByte x = x.extractLsb' 0 8 := BitVec.setWidth_eq_extractLsb' (by decide)

/-! ### Every attempt has a next state (R97, R150) -/

theorem exists_exec_eq_next (i : Instr) (s : State) : ∃ t, exec i s = .next t := by
  cases i with
  | input b c =>
    rcases exec_input_cases b c s with ⟨v, -, he⟩ | ⟨ch, -, -, -, he⟩ <;> exact ⟨_, he⟩
  | output a c =>
    rcases exec_output_cases a c s with ⟨-, he⟩ | ⟨ch, -, -, -, he⟩ <;> exact ⟨_, he⟩
  | subleq a b c => exact ⟨_, exec_subleq_eq a b c s⟩

theorem exists_instructionStep_eq_next (s : State) : ∃ t, instructionStep s = .next t := exists_exec_eq_next _ s

theorem exists_step_eq_next (s : State) : ∃ t, step s = .next t := by
  cases hrun : s.halted with
  | true => exact ⟨s, step_of_halted hrun⟩
  | false => exact step_of_running hrun ▸ exists_exec_eq_next _ s

/-! ### `pc` after a cycle (R95, R115, R135) -/

theorem step_pc_of_holds {s t : State} (ht : step s = .next t) (h : s.holds = true) : t.pc = s.pc := by
  rcases step_cases ht with ⟨-, rfl⟩ | ⟨-, ht⟩
  · rfl
  · obtain ⟨u, hu, hm, -⟩ := instructionStep_of_holds h
    cases ht.symm.trans hu
    exact congrArg MachineState.pc hm

theorem step_pc_of_branch {s t : State} {a b c : Word} (hrun : s.halted = false) (ht : step s = .next t)
    (hd : decode (fetch s) = .subleq a b c) (hb : branchTaken (s.memRead b - s.memRead a) = true) : t.pc = c := by
  rw [step_of_decode hrun hd, exec_subleq_eq] at ht
  cases ht
  exact (subleqEffect_pc a b c s.machine).trans (if_pos hb)

theorem step_pc_of_no_branch {s t : State} (hrun : s.halted = false) (ht : step s = .next t) (h : s.holds = false)
    (hb : ∀ a b c, decode (fetch s) = .subleq a b c → branchTaken (s.memRead b - s.memRead a) = false) :
    t.pc = s.pc + 3 := by
  obtain ⟨u, v, hu, hm, -⟩ := instructionStep_of_not_holds h
  cases ((step_of_running hrun).symm.trans ht).symm.trans hu
  exact (congrArg MachineState.pc hm).trans (machineStep_pc_of_no_branch hb _)

/-- R130 (c): the fetched form is a SUBLEQ that branches, or it is not. -/
theorem branch_cases (s : State) :
    (∃ a b c, decode (fetch s) = .subleq a b c ∧ branchTaken (s.memRead b - s.memRead a) = true) ∨
    ∀ a b c, decode (fetch s) = .subleq a b c → branchTaken (s.memRead b - s.memRead a) = false := by
  rw [or_iff_not_imp_left]
  exact fun h a b c hd => Bool.eq_false_of_not_eq_true fun hb => h ⟨a, b, c, hd, hb⟩

/-! ### A cycle that changes nothing (R102) -/

/-- R102: a running machine whose cycle leaves the state as it was runs for ever. -/
theorem run_of_step_self {s : State} (hrun : s.halted = false) (hself : step s = .next s) (fuel : Nat) : run fuel s = none := by
  induction fuel with
  | zero => exact run_zero_of_running hrun
  | succ fuel ih => exact (run_succ_of_running hrun hself fuel).trans ih

/-- R79 (b): on the machine, a zero cell subtracted from itself is a jump. -/
theorem subleqEffect_zero_cell {m : MachineState} {z : Word} (hz : m.memRead z = 0) (c : Word) :
    subleqEffect z z c m = m.setPc c := by
  have hdiff : m.memRead z - m.memRead z = 0 := BitVec.sub_self _
  refine MachineState.eq_iff_memRead.mpr ⟨?_, fun x => ?_⟩
  · rw [subleqEffect_pc, hdiff, if_pos branchTaken_zero, MachineState.setPc_pc]
  · rw [subleqEffect_memRead, hdiff, MachineState.setPc_memRead]
    by_cases hx : x = z
    · rw [if_pos hx, hx, hz]
    · rw [if_neg hx]

/-- R102, R136 (4): the zeroed triple at address 0 jumps to itself. -/
theorem step_of_zeroed {s : State} (hpc : s.pc = 0) (hmem : ∀ x : Word, s.memRead x = 0) : step s = .next s := by
  have hf : fetch s = ⟨0, 0, 0⟩ := MachineState.fetch_eq_iff.mpr ⟨hmem _, hmem _, hmem _⟩
  have hd : decode (fetch s) = .subleq 0 0 0 := by rw [hf]; rfl
  have hself : subleqEffect 0 0 0 s.machine = s.machine := by
    rw [subleqEffect_zero_cell (hmem 0), ← hpc]; rfl
  rw [step_of_decode (MachineState.halted_of_pc_eq_zero hpc) hd, exec_subleq_eq, State.onMachine, hself]

end Machine

namespace Safety

open Sys2Proof.Machine

/-! ### Where a run ends (R92, R99, R103) -/

/-- After `k` cycles from `s` the machine is halted, in the state `t`, and before that it was running. -/
def EndsAfter (k : Nat) (s t : State) : Prop :=
  t.halted = true ∧ cycles k s = .next t ∧ ∀ j, j < k → ∀ u, cycles j s = .next u → u.halted = false

theorem endsAfter_zero_iff {s t : State} : EndsAfter 0 s t ↔ t.halted = true ∧ t = s := by
  simp [EndsAfter, eq_comm (a := t)]

theorem EndsAfter.eq_zero_of_halted {k : Nat} {s t : State} (h : EndsAfter k s t) (hs : s.halted = true) : k = 0 := by
  obtain ⟨-, -, hbefore⟩ := h
  by_contra hk
  exact absurd hs (by simp [hbefore 0 (Nat.pos_of_ne_zero hk) s rfl])

theorem EndsAfter.ne_zero_of_running {k : Nat} {s t : State} (h : EndsAfter k s t) (hs : s.halted = false) : k ≠ 0 := by
  rintro rfl
  obtain ⟨ht, rfl⟩ := endsAfter_zero_iff.mp h
  exact absurd ht (by simp [hs])

theorem endsAfter_succ_iff {k : Nat} {s u t : State} (hs : s.halted = false) (hu : step s = .next u) :
    EndsAfter (k + 1) s t ↔ EndsAfter k u t := by
  have hbefore : (∀ j, j < k + 1 → ∀ v, cycles j s = .next v → v.halted = false) ↔
      ∀ j, j < k → ∀ v, cycles j u = .next v → v.halted = false := by
    constructor
    · intro h j hj v hv
      exact h (j + 1) (Nat.succ_lt_succ hj) v ((cycles_succ hu j).trans hv)
    · intro h j hj v hv
      cases j with
      | zero => cases hv; exact hs
      | succ j => exact h j (Nat.lt_of_succ_lt_succ hj) v ((cycles_succ hu j).symm.trans hv)
  rw [EndsAfter, EndsAfter, cycles_succ hu, hbefore]

theorem exists_endsAfter_of_halted {fuel : Nat} {s t : State} (hs : s.halted = true) :
    (∃ k, k ≤ fuel ∧ EndsAfter k s t) ↔ t = s := by
  constructor
  · rintro ⟨k, -, h⟩
    obtain rfl := h.eq_zero_of_halted hs
    exact (endsAfter_zero_iff.mp h).2
  · rintro rfl
    exact ⟨0, Nat.zero_le fuel, endsAfter_zero_iff.mpr ⟨hs, rfl⟩⟩

theorem exists_endsAfter_succ_iff {fuel : Nat} {s u t : State} (hs : s.halted = false) (hu : step s = .next u) :
    (∃ k, k ≤ fuel + 1 ∧ EndsAfter k s t) ↔ ∃ k, k ≤ fuel ∧ EndsAfter k u t := by
  constructor
  · rintro ⟨k, hk, h⟩
    obtain ⟨j, rfl⟩ := Nat.exists_eq_succ_of_ne_zero (h.ne_zero_of_running hs)
    exact ⟨j, Nat.le_of_succ_le_succ hk, (endsAfter_succ_iff hs hu).mp h⟩
  · rintro ⟨k, hk, h⟩
    exact ⟨k + 1, Nat.succ_le_succ hk, (endsAfter_succ_iff hs hu).mpr h⟩

theorem run_eq_some_iff_of_halted {fuel : Nat} {s t : State} {status : Config.Status} (hs : s.halted = true) :
    run fuel s = some (status, t) ↔ status = Config.statusSuccess ∧ ∃ k, k ≤ fuel ∧ EndsAfter k s t := by
  rw [run_of_halted hs, exists_endsAfter_of_halted hs, Option.some_inj, Prod.mk_inj, eq_comm, eq_comm (a := s)]

/-- A run returns where the cycles end, if the fuel reaches that far. -/
theorem run_eq_some_iff {fuel : Nat} {s t : State} {status : Config.Status} :
    run fuel s = some (status, t) ↔ status = Config.statusSuccess ∧ ∃ k, k ≤ fuel ∧ EndsAfter k s t := by
  induction fuel generalizing s with
  | zero =>
    cases hs : s.halted with
    | true => exact run_eq_some_iff_of_halted hs
    | false =>
      rw [run_zero_of_running hs]
      refine iff_of_false nofun ?_
      rintro ⟨-, k, hk, h⟩
      exact h.ne_zero_of_running hs (Nat.le_zero.mp hk)
  | succ fuel ih =>
    cases hs : s.halted with
    | true => exact run_eq_some_iff_of_halted hs
    | false =>
      obtain ⟨u, hu⟩ := exists_step_eq_next s
      rw [run_succ_of_running hs hu, exists_endsAfter_succ_iff hs hu, ih]

/-! ### The pseudocode of R97 -/

theorem architectural_inputEffect (b v : Word) (m : MachineState) :
    architectural (inputEffect b v m) = Architectural.memWrite ⟨m.pc + 3, m.memRead⟩ b v :=
  congrArg (Architectural.mk _) (funext (inputEffect_memRead b v m))

theorem architectural_subleqEffect (a b c : Word) (m : MachineState) :
    architectural (subleqEffect a b c m) = Architectural.memWrite
      ⟨if branchTaken (m.memRead b - m.memRead a) then c else m.pc + 3, m.memRead⟩ b (m.memRead b - m.memRead a) :=
  congrArg₂ Architectural.mk (subleqEffect_pc a b c m) (funext (subleqEffect_memRead a b c m))

/-! The three paths through the pseudocode. -/

theorem pseudocode_of_a_sentinel {m : Architectural} (ha : m.mem m.pc = 0xFFFF) (v : Word) :
    pseudocode v m = (Architectural.memWrite ⟨m.pc + 3, m.mem⟩ (m.mem (m.pc + 1)) v, none) :=
  if_pos ha

theorem pseudocode_of_b_sentinel {m : Architectural} (ha : m.mem m.pc ≠ 0xFFFF) (hb : m.mem (m.pc + 1) = 0xFFFF) (v : Word) :
    pseudocode v m = (⟨m.pc + 3, m.mem⟩, some (lowByte (m.mem (m.mem m.pc)))) := by
  rw [lowByte_eq_extractLsb']
  exact (if_neg ha).trans (if_pos hb)

theorem pseudocode_of_no_sentinel {m : Architectural} {a b c : Word} (ha : m.mem m.pc = a) (hb : m.mem (m.pc + 1) = b)
    (hc : m.mem (m.pc + 2) = c) (hna : a ≠ 0xFFFF) (hnb : b ≠ 0xFFFF) (v : Word) :
    pseudocode v m = (Architectural.memWrite ⟨if branchTaken (m.mem b - m.mem a) then c else m.pc + 3, m.mem⟩ b
      (m.mem b - m.mem a), none) := by
  subst ha hb hc
  refine (if_neg hna).trans ((if_neg hnb).trans ?_)
  simp only [branchTaken_iff_getLsbD]
  split <;> rfl

/-- R97: the pseudocode over the total memory is `machineStep` on the pair. -/
theorem pseudocode_architectural (v : Word) (m : MachineState) :
    pseudocode v (architectural m) = (architectural (machineStep v m).1, (machineStep v m).2) := by
  cases hd : decode m.fetch with
  | input b c =>
    obtain ⟨ha, rfl, -⟩ := MachineState.fetch_eq_iff.mp (fields_of_decode_input hd)
    rw [machineStep_input hd, architectural_inputEffect]
    exact pseudocode_of_a_sentinel (m := architectural m) ha v
  | output a c =>
    obtain ⟨hna, hf⟩ := fields_of_decode_output hd
    obtain ⟨rfl, hb, -⟩ := MachineState.fetch_eq_iff.mp hf
    rw [machineStep_output hd]
    exact pseudocode_of_b_sentinel (m := architectural m) hna hb v
  | subleq a b c =>
    obtain ⟨⟨hna, hnb⟩, hf⟩ := fields_of_decode_subleq hd
    obtain ⟨ha, hb, hc⟩ := MachineState.fetch_eq_iff.mp hf
    rw [machineStep_subleq hd, architectural_subleqEffect]
    exact pseudocode_of_no_sentinel (m := architectural m) ha hb hc hna hnb v

end Safety

end Sys2Proof

/-! PROOFS. The statements of 40_sequencer.md: the fetch, the halt test, the run loop, and `Step` against R97. -/

namespace Sys2Proof.Proofs

open Sys2Proof.Machine Sys2Proof.Safety

/-- Settles O38, the halt test being all that the cycle adds to `Step`. -/
theorem stepRunsDecodedInstruction : Obligations.StepRunsDecodedInstruction :=
  fun _ _ hd => ⟨instructionStep_of_decode hd, fun hrun => step_of_decode hrun hd⟩

/-- Settles O39: the sum of Words is the sum of numbers modulo 65536. -/
theorem fetchReadsThreeWords : Obligations.FetchReadsThreeWords := by
  intro s
  refine ⟨rfl, congrArg s.memRead (Word.add_eq_ofNat s.pc 1), congrArg s.memRead (Word.add_eq_ofNat s.pc 2),
    fun hpc => ?_, fun hpc => ?_⟩
  · simp [MachineState.fetch, hpc]
  · simp [MachineState.fetch, hpc]

/-- Settles O40: the halt test is the top bit of `pc`. -/
theorem haltedMachineDoesNothing : Obligations.HaltedMachineDoesNothing :=
  fun s => ⟨s.machine.halted_iff, step_of_halted⟩

/-- Settles O42: by induction on the fuel (`run_eq_some_iff`), of which a running machine's step uses one. -/
theorem runEndsAtFirstHaltedState : Obligations.RunEndsAtFirstHaltedState := by
  intro fuel s t status
  rw [run_eq_some_iff]
  simp only [EndsAfter, and_left_comm (b := t.halted = true), exists_and_left]

/-- Settles O41: a run that returned has ended in a halted state, on which every run returns at once. -/
theorem runOnHaltedMachineReturnsAtOnce : Obligations.RunOnHaltedMachineReturnsAtOnce := by
  refine ⟨fun s hs => run_of_halted (s.machine.halted_eq_getLsbD.trans hs), fun fuel fuel' s t status hrun => ?_⟩
  obtain ⟨rfl, _, -, hhalt, -⟩ := run_eq_some_iff.mp hrun
  exact run_of_halted hhalt fuel'

/-- Settles O44: below 0x8000 neither sum reaches 65536. -/
theorem fetchReachUnderRun : Obligations.FetchReachUnderRun := by
  intro s
  refine ⟨fun hrun => ?_, ?_, fun hpc => ?_, fun hpc => ?_⟩
  · have hlow := s.machine.halted_eq_false_iff.mp hrun
    simp only [MachineState.advance_pc, State.pc]
    bv_omega
  · simp only [MachineState.advance_pc, State.pc]
    bv_omega
  · simp [MachineState.fetch, hpc]
  · simp [MachineState.fetch, hpc]

/-- Settles O48: the step of zeroed memory is the identity on a running machine. -/
theorem zeroedMemoryHangs : Obligations.ZeroedMemoryHangs := by
  intro s hpc hmem
  have hself := step_of_zeroed hpc hmem
  exact ⟨hself, run_of_step_self (MachineState.halted_of_pc_eq_zero hpc) hself⟩

/-- Settles O50, form by form (`exists_exec_eq_next`). -/
theorem everyStateHasANextState : Obligations.EveryStateHasANextState :=
  ⟨exists_step_eq_next, exists_instructionStep_eq_next, exists_exec_eq_next⟩

/-- Settles O52: under a hold nothing has changed, and otherwise `machineStep` with the answer is the pseudocode. -/
theorem stepRefinesPseudocode : Obligations.StepRefinesPseudocode := by
  intro s
  cases h : s.holds with
  | true =>
    obtain ⟨t, ht, hm, hrecords⟩ := instructionStep_of_holds h
    exact ⟨t, ht, fun _ => ⟨congrArg architectural hm, hrecords⟩, nofun⟩
  | false =>
    obtain ⟨t, v, ht, hm, hp, hin, hother⟩ := instructionStep_of_not_holds h
    refine ⟨t, ht, nofun, fun _ => ⟨v, ?_, ?_, ?_⟩⟩
    · rw [pseudocode_architectural, hm]
    · rw [pseudocode_architectural, hp]
    · split
      · next ha =>
        obtain ⟨hv, htook⟩ := hin ha
        exact ⟨hv, by rw [htook, InputChannel.took_consumed]⟩
      · next ha => exact hother ha

/-- Settles O43: `pc` is the old one, the target of a taken branch, or the advance, which leaves the lower half from three addresses. -/
theorem haltingHappensInTwoWays : Obligations.HaltingHappensInTwoWays := by
  intro s t hrun ht
  refine ⟨fun hhalt => ?halts, fun a b c hd hb hc => ?branch, fun h hb => ?advance⟩
  case halts =>
    have hlow : s.pc.toNat < 0x8000 := s.machine.halted_eq_false_iff.mp hrun
    have hup : 0x8000 ≤ t.pc.toNat := t.machine.halted_iff.mp hhalt
    have h : s.holds = false := by
      by_contra hs
      rw [step_pc_of_holds ht (Bool.eq_true_of_not_eq_false hs)] at hup
      exact hup.not_gt hlow
    refine ⟨h, (branch_cases s).imp ?_ fun hb => ⟨?_, hb⟩⟩
    · rintro ⟨a, b, c, hd, hb⟩
      have hpc : t.pc = c := step_pc_of_branch hrun ht hd hb
      exact ⟨a, b, c, hd, hb, hpc ▸ hup, hpc⟩
    · have hpc : t.pc = s.pc + 3 := step_pc_of_no_branch hrun ht h hb
      rw [hpc] at hup ⊢
      exact Word.add_three_upper_cases hlow hup
  case branch =>
    have hpc : t.pc = c := step_pc_of_branch hrun ht hd hb
    exact ⟨hpc, t.machine.halted_iff.mpr (hc.trans (congrArg BitVec.toNat hpc).ge)⟩
  case advance =>
    have hhalted {w v : Word} (hv : w + 3 = v) (hup : v.msb = true) (hw : s.pc = w) : t.pc = v ∧ t.halted = true := by
      have hpc : t.pc = v := by rw [step_pc_of_no_branch hrun ht h hb, hw, hv]
      exact ⟨hpc, (congrArg BitVec.msb hpc).trans hup⟩
    exact ⟨hhalted rfl rfl, hhalted rfl rfl, hhalted rfl rfl⟩

end Sys2Proof.Proofs

/-! PROOFS. 41_io.md R111 to R114: one attempt at a channel, event by event, the Words that an answer can give, and the results of IN and OUT. -/

namespace Sys2Proof

/-- R95: the advance, the Word of a sum of numbers. -/
theorem Word.add_three_eq_ofNat_add (w : Word) : w + 3 = BitVec.ofNat 16 (w.toNat + 3) :=
  BitVec.eq_of_toNat_eq (by simp)

namespace Machine

/-! ### One attempt at `ReadByte()` (R111, R115, R117) -/

section ReadByte

variable {ch : InputChannel}

theorem InputChannel.readByte_of_answer {v : InputAnswer} {rest : List InputEvent} (h : ch.pending = .answer v :: rest) :
    ch.readByte = (some v, ⟨rest, ch.tail, ch.consumed ++ [v]⟩) := by
  cases ch; cases h; rfl

theorem InputChannel.readByte_of_notYet {rest : List InputEvent} (h : ch.pending = .notYet :: rest) :
    ch.readByte = (none, ⟨rest, ch.tail, ch.consumed⟩) := by
  cases ch; cases h; rfl

theorem InputChannel.readByte_of_free (h : ch.pending = []) (ht : ch.tail = .free) :
    ch.readByte = (some (Config.inputAnswer ch.consumed.length),
      ⟨[], .free, ch.consumed ++ [Config.inputAnswer ch.consumed.length]⟩) := by
  cases ch; cases h; cases ht; rfl

theorem InputChannel.readByte_of_ended (h : ch.pending = []) (ht : ch.tail = .ended) :
    ch.readByte = (some .endOrFailure, ⟨[], .ended, ch.consumed ++ [.endOrFailure]⟩) := by
  cases ch; cases h; cases ht; rfl

theorem InputChannel.readByte_of_silent (h : ch.pending = []) (ht : ch.tail = .silent) : ch.readByte = (none, ch) := by
  cases ch; cases h; cases ht; rfl

end ReadByte

/-! ### One attempt at `WriteByte` (R112, R115, R118) -/

section WriteByte

variable {ch : OutputChannel} {rest : List OutputEvent}

/-- R112: the sink takes the byte or fails, with the same result. -/
theorem OutputChannel.writeByte_of_ends {ev : OutputEvent} (hev : ev = .taken ∨ ev = .failed) (h : ch.pending = ev :: rest)
    (v : Byte) : ch.writeByte v = (true, ⟨rest, ch.tail, ch.presented ++ [v]⟩) := by
  rcases hev with rfl | rfl
  · cases ch; cases h; rfl
  · cases ch; cases h; rfl

theorem OutputChannel.writeByte_of_notYet (h : ch.pending = .notYet :: rest) (v : Byte) :
    ch.writeByte v = (false, ⟨rest, ch.tail, ch.presented⟩) := by
  cases ch; cases h; rfl

theorem OutputChannel.writeByte_of_ready (h : ch.pending = []) (ht : ch.tail = .ready) (v : Byte) :
    ch.writeByte v = (true, ⟨[], .ready, ch.presented ++ [v]⟩) := by
  cases ch; cases h; cases ht; rfl

theorem OutputChannel.writeByte_of_silent (h : ch.pending = []) (ht : ch.tail = .silent) (v : Byte) :
    ch.writeByte v = (false, ch) := by
  cases ch; cases h; cases ht; rfl

end WriteByte

/-! ### The Word of an answer, and the byte of a Word (R111, R114) -/

theorem inputWord_byte_toNat (n : Byte) : (inputWord (.byte n)).toNat = n.toNat :=
  BitVec.toNat_setWidth_of_le (by decide)

/-- R111: the sentinel is not the Word of a byte. -/
theorem inputWord_byte_ne_sentinel (n : Byte) : inputWord (.byte n) ≠ 0xFFFF := by
  intro h
  have hn : n.toNat = 65535 := (inputWord_byte_toNat n).symm.trans (congrArg BitVec.toNat h)
  have hlt : n.toNat < 256 := n.isLt
  omega

theorem exists_inputWord_eq {w : Word} (h : w.toNat ≤ 255 ∨ w = 0xFFFF) : ∃ v, inputWord v = w := by
  rcases h with h | rfl
  · refine ⟨.byte (BitVec.ofNat 8 w.toNat), BitVec.eq_of_toNat_eq ?_⟩
    rw [inputWord_byte_toNat, BitVec.toNat_ofNat]
    exact Nat.mod_eq_of_lt (Nat.lt_succ_of_le h)
  · exact ⟨.endOrFailure, rfl⟩

theorem inputWord_injective : Function.Injective inputWord := by
  intro v v' h
  cases v with
  | byte n =>
    cases v' with
    | byte n' =>
      have hn : n.toNat = n'.toNat := by rw [← inputWord_byte_toNat, h, inputWord_byte_toNat]
      rw [BitVec.eq_of_toNat_eq hn]
    | endOrFailure => exact absurd h (inputWord_byte_ne_sentinel n)
  | endOrFailure =>
    cases v' with
    | byte n' => exact absurd h.symm (inputWord_byte_ne_sentinel n')
    | endOrFailure => rfl

theorem lowByte_eq_ofNat (x : Word) : lowByte x = BitVec.ofNat 8 (x.toNat % 256) :=
  BitVec.eq_of_toNat_eq (by simp [lowByte])

end Machine

end Sys2Proof

namespace Sys2Proof.Proofs

open Sys2Proof.Machine

/-- Settles O21, event by event. -/
theorem readByteFollowsTheSource : Obligations.ReadByteFollowsTheSource :=
  fun _ _ _ => ⟨InputChannel.readByte_of_answer, InputChannel.readByte_of_notYet,
    fun h ht => ⟨_, InputChannel.readByte_of_free h ht⟩, InputChannel.readByte_of_ended, InputChannel.readByte_of_silent⟩

/-- Settles O22, event by event; a sink that takes the byte and one that fails are one case. -/
theorem writeByteFollowsTheSink : Obligations.WriteByteFollowsTheSink := by
  intro ch rest v
  refine ⟨?ends, fun h => OutputChannel.writeByte_of_notYet h v, fun h ht => OutputChannel.writeByte_of_ready h ht v,
    fun h ht => OutputChannel.writeByte_of_silent h ht v⟩
  rintro (h | h)
  · exact OutputChannel.writeByte_of_ends (.inl rfl) h v
  · exact OutputChannel.writeByte_of_ends (.inr rfl) h v

/-- Settles O24: zero extension keeps the number of a byte, which is below the sentinel. -/
theorem readByteReturns257Words : Obligations.ReadByteReturns257Words :=
  ⟨inputWord_le_or_sentinel, inputWord_byte_toNat, rfl, fun _ => exists_inputWord_eq, fun _ _ h => inputWord_injective h⟩

/-- Settles O16: an IN that is answered stores the Word of its answer. -/
theorem inputResult : Obligations.InputResult := by
  intro b c s
  refine ⟨decode_of_a_sentinel rfl, fun v hv => ⟨_, exec_input_of_answer hv b c, ?ended, ?byte, ?frame, ?pc, rfl, rfl⟩⟩
  case pc => exact Word.add_three_eq_ofNat_add s.pc
  all_goals simp only [State.memRead, State.onMachine_machine, State.setInput_machine, inputEffect_memRead, if_true]
  case ended => rintro rfl; rfl
  case byte => rintro n rfl; exact inputWord_byte_toNat n
  case frame => exact fun x hx => if_neg hx

/-- Settles O17, by the two things an IN can do. -/
theorem inputAttemptIsAStep : Obligations.InputAttemptIsAStep := by
  intro b c s
  rcases exec_input_cases b c s with ⟨v, hv, he⟩ | ⟨ch, hch, -, hc, he⟩
  · refine ⟨_, he, ?_, rfl, ?_⟩
    · rw [hv]; rfl
    · rw [hv]; nofun
  · refine ⟨_, he, ?_, rfl, fun _ => ⟨rfl, hc⟩⟩
    rw [hch]; rfl

/-- Settles O18: a sink that ends the transaction has been presented the low byte. -/
theorem outputResult : Obligations.OutputResult := by
  intro a c s ha
  refine ⟨decode_of_b_sentinel ha rfl, fun h => ⟨_, exec_output_of_accepts (h 0) a c, ?_, ?_, rfl, rfl⟩⟩
  · exact congrArg (s.output.presented ++ [·]) (lowByte_eq_ofNat (s.memRead a))
  · exact Word.add_three_eq_ofNat_add s.pc

/-- Settles O19, by the two things an OUT can do. -/
theorem outputAttemptIsAStep : Obligations.OutputAttemptIsAStep := by
  intro a c s _
  rw [← lowByte_eq_extractLsb', ← outputByte_eq]
  rcases exec_output_cases a c s with ⟨hw, he⟩ | ⟨ch, hch, -, hp, he⟩
  · refine ⟨_, he, ?_, rfl, fun h => ?_⟩
    · rw [hw]; rfl
    · exact absurd (h _) (by rw [hw]; nofun)
  · refine ⟨_, he, ?_, rfl, fun _ => ⟨rfl, hp⟩⟩
    rw [hch]; rfl

end Sys2Proof.Proofs

/-! PROOFS. 41_io.md R117: the answers of a channel whose listed events are followed by the sticky end of stream, with holds and without. -/

namespace Sys2Proof.Machine

/-- The answer that a listed event gives; a hold gives none. -/
def InputEvent.answer? : InputEvent → Option InputAnswer
  | .notYet => none
  | .answer v => some v

/-- R117: the `i`-th answer (from 0) of a source with these listed events: the `i`-th of those listed, and end of stream after them. -/
def nthAnswer (pending : List InputEvent) (i : Nat) : InputAnswer :=
  (pending.filterMap InputEvent.answer?).getD i .endOrFailure

@[simp] theorem nthAnswer_nil (i : Nat) : nthAnswer [] i = .endOrFailure := rfl

@[simp] theorem nthAnswer_answer_zero (v : InputAnswer) (rest : List InputEvent) : nthAnswer (.answer v :: rest) 0 = v := rfl

/-- R117: without its holds, what a source of `INPUT_STREAM(s)` has listed is the bytes and then ends of stream. -/
theorem answers_of_isStream {ch : InputChannel} {bytes : List Byte} (h : ch.IsStream bytes) :
    ∃ n, ch.pending.filterMap InputEvent.answer? = bytes.map .byte ++ List.replicate n .endOrFailure := by
  obtain ⟨-, n, hn⟩ := h
  have hholds : ch.pending.filterMap InputEvent.answer? =
      (ch.pending.filter (fun e => e != .notYet)).filterMap InputEvent.answer? := by
    rw [List.filterMap_filter]
    congr 1
    funext e
    cases e <;> rfl
  refine ⟨n, ?_⟩
  rw [hholds, hn, List.filterMap_append, List.filterMap_map,
    List.filterMap_replicate_of_some (f := InputEvent.answer?) rfl]
  exact congrArg (· ++ _) (congrFun (List.filterMap_eq_map (f := InputAnswer.byte)) bytes)

/-- R117: the bytes in order, then end of stream. -/
theorem nthAnswer_of_isStream {ch : InputChannel} {bytes : List Byte} (h : ch.IsStream bytes) (i : Nat) :
    (∀ n : Byte, bytes[i]? = some n → nthAnswer ch.pending i = .byte n) ∧
    (bytes.length ≤ i → nthAnswer ch.pending i = .endOrFailure) := by
  obtain ⟨n, hn⟩ := answers_of_isStream h
  rw [nthAnswer, hn]
  constructor
  · intro b hb
    have hi : i < (bytes.map InputAnswer.byte).length := by
      rw [List.length_map]
      exact (List.getElem?_eq_some_iff.mp hb).1
    rw [List.getD_append _ _ _ _ hi, List.getD_eq_getElem?_getD, List.getElem?_map, hb]
    rfl
  · intro hi
    rw [List.getD_append_right _ _ _ _ (by rwa [List.length_map]), List.getD_eq_getElem?_getD,
      List.getElem?_getD_replicate_default_eq]

theorem InputChannel.stream_isStream (bytes : List Byte) : (InputChannel.stream bytes).IsStream bytes := by
  have hanswers : ∀ e ∈ (InputChannel.stream bytes).pending, (e != .notYet) = true := by simp [InputChannel.stream]
  exact ⟨rfl, 0, (List.filter_eq_self.mpr hanswers).trans (List.append_nil _).symm⟩

end Sys2Proof.Machine

namespace Sys2Proof.Safety

open Sys2Proof.Machine

/-- The attempts at a channel that ends in the sticky end of stream, by the first listed event. -/
theorem attempts_ended_induction {P : Nat → List InputEvent → List (Option InputAnswer) → Prop}
    (zero : ∀ pending, P 0 pending [])
    (ended : ∀ {k l}, P k [] l → P (k + 1) [] (some .endOrFailure :: l))
    (hold : ∀ {k rest l}, P k rest l → P (k + 1) (.notYet :: rest) (none :: l))
    (answer : ∀ {k rest l} v, P k rest l → P (k + 1) (.answer v :: rest) (some v :: l))
    (k : Nat) {ch : InputChannel} (ht : ch.tail = .ended) : P k ch.pending (attempts k ch) := by
  obtain ⟨pending, tail, consumed⟩ := ch
  cases ht
  induction k generalizing pending consumed with
  | zero => exact zero pending
  | succ k ih =>
    rcases pending with _ | ⟨_ | v, rest⟩
    · exact ended (ih [] (consumed ++ [InputAnswer.endOrFailure]))
    · exact hold (ih rest consumed)
    · exact answer v (ih rest (consumed ++ [v]))

section Ended

variable {ch : InputChannel} (ht : ch.tail = .ended)
include ht

/-- Whatever holds come between them, the answers are those listed, in order, and then end of stream. -/
theorem answers_of_attempts_ended (k i : Nat) {v : InputAnswer} (h : ((attempts k ch).filterMap id)[i]? = some v) :
    v = nthAnswer ch.pending i := by
  refine attempts_ended_induction
    (P := fun _ pending l => ∀ i v, (l.filterMap id)[i]? = some v → v = nthAnswer pending i) ?zero ?ended ?hold ?answer k ht i v h
  case zero => simp
  case ended =>
    rintro k l ih (_ | i) v h
    · simpa using h.symm
    · exact ih i v h
  case hold => exact fun ih => ih
  case answer =>
    rintro k rest l w ih (_ | i) v h
    · simpa using h.symm
    · exact ih i v h

/-- Every attempt that gives no answer uses up a listed hold. -/
theorem le_length_answers_add_holds (k : Nat) :
    k ≤ ((attempts k ch).filterMap id).length + ch.pending.count .notYet := by
  refine attempts_ended_induction (P := fun k pending l => k ≤ (l.filterMap id).length + pending.count .notYet)
    ?zero ?ended ?hold ?answer k ht
  case zero => simp
  case ended => exact fun ih => Nat.succ_le_succ ih
  case hold =>
    intro k rest l ih
    rw [List.count_cons_self]
    exact Nat.succ_le_succ ih
  case answer =>
    intro k rest l v ih
    have hanswer : InputEvent.answer v ≠ .notYet := nofun
    rw [List.count_cons_of_ne hanswer, List.filterMap_cons_some (f := id) rfl, List.length_cons]
    omega

/-- Where no hold is listed, no attempt holds. -/
theorem attempts_getElem?_of_no_hold (hno : .notYet ∉ ch.pending) {k i : Nat} (hi : i < k) :
    (attempts k ch)[i]? = some (some (nthAnswer ch.pending i)) := by
  refine attempts_ended_induction
    (P := fun k pending l => .notYet ∉ pending → ∀ i, i < k → l[i]? = some (some (nthAnswer pending i)))
    ?zero ?ended ?hold ?answer k ht hno i hi
  case zero => simp
  case ended =>
    rintro k l ih hno (_ | i) hi
    · rfl
    · exact ih hno i (Nat.lt_of_succ_lt_succ hi)
  case hold => simp
  case answer =>
    rintro k rest l v ih hno (_ | i) hi
    · rfl
    · exact ih (List.not_mem_of_not_mem_cons hno) i (Nat.lt_of_succ_lt_succ hi)

end Ended

end Sys2Proof.Safety

namespace Sys2Proof.Proofs

open Sys2Proof.Machine Sys2Proof.Safety

/-- Settles O25: on a channel that lists no hold, every attempt gives the next answer. -/
theorem inputStreamAnswersInOrder : Obligations.InputStreamAnswersInOrder := by
  intro bytes k i hi
  have hno : .notYet ∉ (InputChannel.stream bytes).pending := by simp [InputChannel.stream]
  obtain ⟨hbyte, hend⟩ := nthAnswer_of_isStream (InputChannel.stream_isStream bytes) i
  rw [attempts_getElem?_of_no_hold rfl hno hi]
  exact ⟨fun n hn => by rw [hbyte n hn], fun hlen => by rw [hend hlen]⟩

/-- Settles O26: holds leave the answers in order, and there are only as many holds as are listed. -/
theorem inputStreamWithHolds : Obligations.InputStreamWithHolds := by
  refine fun bytes => ⟨InputChannel.stream_isStream bytes, fun ch h => ?_⟩
  have ht : ch.tail = .ended := h.1
  refine ⟨fun k i v hv => ?_, fun j => ?_⟩
  · rw [answers_of_attempts_ended ht k i hv]
    exact nthAnswer_of_isStream h i
  · have hcount := le_length_answers_add_holds ht (j + ch.pending.count .notYet)
    exact ⟨_, Nat.le_of_add_le_add_right hcount⟩

end Sys2Proof.Proofs

/-! PROOFS. 41_io.md R110, R115, R118: the records of the channels along a run, and an instruction that is held for some attempts or for ever. -/

namespace Sys2Proof.Machine

/-! ### The transaction of a cycle (R110, R118) -/

/-- R118: a cycle adds to the records of the two channels and takes nothing from them. -/
def State.ExtendsRecords (s t : State) : Prop :=
  s.input.consumed <+: t.input.consumed ∧ s.output.presented <+: t.output.presented

theorem State.ExtendsRecords.refl (s : State) : s.ExtendsRecords s := ⟨List.prefix_rfl, List.prefix_rfl⟩

theorem State.ExtendsRecords.trans {s t u : State} (hst : s.ExtendsRecords t) (htu : t.ExtendsRecords u) : s.ExtendsRecords u :=
  ⟨hst.1.trans htu.1, hst.2.trans htu.2⟩

end Sys2Proof.Machine

namespace Sys2Proof.Safety

open Sys2Proof.Machine

/-! ### Cycles, counted -/

theorem cycles_one (s : State) : cycles 1 s = step s := by
  obtain ⟨t, ht⟩ := exists_step_eq_next s
  rw [cycles_succ ht, ht, cycles_zero]

/-- What holds of no cycle, and is carried over by a first cycle, holds of any number of cycles. -/
theorem cycles_induction {P : Nat → State → State → Prop} (zero : ∀ s, P 0 s s)
    (succ : ∀ {n s u t}, step s = .next u → P n u t → P (n + 1) s t) {n : Nat} {s t : State}
    (h : cycles n s = .next t) : P n s t := by
  induction n generalizing s with
  | zero => cases h; exact zero _
  | succ n ih =>
    obtain ⟨u, hu, hrest⟩ := core_run_succ_eq_next h
    exact succ hu (ih hrest)

/-- Where each cycle but the last leads one state down in a sequence, the last is the step of its first state. -/
theorem cycles_countdown {f : Nat → State} (h : ∀ n, step (f (n + 1)) = .next (f n)) (n : Nat) :
    cycles (n + 1) (f n) = step (f 0) := by
  induction n with
  | zero => exact cycles_one (f 0)
  | succ n ih => exact (cycles_succ (h n) (n + 1)).trans ih

end Sys2Proof.Safety

namespace Sys2Proof.Machine

/-! ### Listed holds (R115) -/

/-- The state whose input source first holds `n` attempts. -/
def State.holdInput (s : State) (rest : List InputEvent) (n : Nat) : State :=
  s.setInput { s.input with pending := List.replicate n .notYet ++ rest }

/-- The state whose output sink first holds `n` attempts. -/
def State.holdOutput (s : State) (rest : List OutputEvent) (n : Nat) : State :=
  s.setOutput { s.output with pending := List.replicate n .notYet ++ rest }

theorem step_holdInput_succ {s : State} {b c : Word} (hrun : s.halted = false) (hd : decode (fetch s) = .input b c)
    (rest : List InputEvent) (n : Nat) : step (s.holdInput rest (n + 1)) = .next (s.holdInput rest n) :=
  (step_of_decode (s := s.holdInput rest (n + 1)) hrun hd).trans
    (exec_input_of_hold (InputChannel.readByte_of_notYet rfl) b c)

theorem step_holdOutput_succ {s : State} {a c : Word} (hrun : s.halted = false) (hd : decode (fetch s) = .output a c)
    (rest : List OutputEvent) (n : Nat) : step (s.holdOutput rest (n + 1)) = .next (s.holdOutput rest n) :=
  (step_of_decode (s := s.holdOutput rest (n + 1)) hrun hd).trans
    (exec_output_of_hold (OutputChannel.writeByte_of_notYet rfl _) c)

/-! ### Silence (R115) -/

theorem step_input_of_silent {s : State} {b c : Word} (hrun : s.halted = false) (hd : decode (fetch s) = .input b c)
    (hp : s.input.pending = []) (ht : s.input.tail = .silent) : step s = .next s :=
  (step_of_decode hrun hd).trans (exec_input_of_hold (InputChannel.readByte_of_silent hp ht) b c)

theorem step_output_of_silent {s : State} {a c : Word} (hrun : s.halted = false) (hd : decode (fetch s) = .output a c)
    (hp : s.output.pending = []) (ht : s.output.tail = .silent) : step s = .next s :=
  (step_of_decode hrun hd).trans (exec_output_of_hold (OutputChannel.writeByte_of_silent hp ht _) c)

end Sys2Proof.Machine

namespace Sys2Proof.Proofs

open Sys2Proof.Machine Sys2Proof.Safety

/-- Settles O27, by what each form can do. -/
theorem oneTransactionPerCycle : Obligations.OneTransactionPerCycle := by
  intro s t ht
  rcases step_cases ht with ⟨-, rfl⟩ | ⟨-, ht⟩
  · exact .inl ⟨rfl, rfl⟩
  cases hd : decode (fetch s) with
  | input b c =>
    rw [instructionStep_of_decode hd] at ht
    rcases exec_input_cases b c s with ⟨v, -, he⟩ | ⟨ch, -, -, hc, he⟩ <;> cases he.symm.trans ht
    · have hcell : (inputEffect b (inputWord v) s.machine).memRead b = inputWord v :=
        (inputEffect_memRead b _ s.machine b).trans (if_pos rfl)
      exact .inr (.inl ⟨b, c, v, rfl, hcell, rfl, rfl⟩)
    · exact .inl ⟨hc, rfl⟩
  | output a c =>
    rw [instructionStep_of_decode hd] at ht
    rcases exec_output_cases a c s with ⟨-, he⟩ | ⟨ch, -, -, hp, he⟩ <;> cases he.symm.trans ht
    · refine .inr (.inr ⟨a, c, rfl, ?_, rfl⟩)
      rw [← lowByte_eq_extractLsb']
      rfl
    · exact .inl ⟨rfl, hp⟩
  | subleq a b c =>
    rw [instructionStep_of_decode hd, exec_subleq_eq] at ht
    cases ht
    exact .inl ⟨rfl, rfl⟩

/-- R118: the transaction of a cycle, if it makes one, is added to the records. -/
theorem step_extendsRecords {s t : State} (ht : step s = .next t) : s.ExtendsRecords t := by
  rcases oneTransactionPerCycle s t ht with ⟨hc, hp⟩ | ⟨_, _, v, -, -, hc, ho⟩ | ⟨_, _, -, hp, hi⟩
  · exact ⟨hc ▸ List.prefix_rfl, hp ▸ List.prefix_rfl⟩
  · exact ⟨⟨[v], hc.symm⟩, ho ▸ List.prefix_rfl⟩
  · exact ⟨hi ▸ List.prefix_rfl, ⟨_, hp.symm⟩⟩

theorem cycles_extendsRecords {n : Nat} {s t : State} (h : cycles n s = .next t) : s.ExtendsRecords t :=
  cycles_induction (P := fun _ s t => s.ExtendsRecords t) State.ExtendsRecords.refl
    (fun hu hrest => (step_extendsRecords hu).trans hrest) h

/-- Settles O28: each held attempt uses up one listed hold and changes nothing else. -/
theorem heldInstructionIsRetried : Obligations.HeldInstructionIsRetried := by
  intro s n hrun
  constructor
  · intro b c v rest hd
    exact cycles_countdown (step_holdInput_succ hrun hd (.answer v :: rest)) n
  · intro a c ev rest hd _
    exact cycles_countdown (step_holdOutput_succ hrun hd (ev :: rest)) n

/-- Settles O29: an attempt at a silent channel changes nothing. -/
theorem silentChannelHoldsForever : Obligations.SilentChannelHoldsForever := by
  intro s hrun h
  have hself : step s = .next s := by
    rcases h with ⟨⟨b, c, hd⟩, hp, ht⟩ | ⟨⟨a, c, hd⟩, hp, ht⟩
    · exact step_input_of_silent hrun hd hp ht
    · exact step_output_of_silent hrun hd hp ht
  exact ⟨hself, run_of_step_self hrun hself⟩

/-- Settles O31: the run is a number of cycles, which extend the records, and it leaves a halted machine, on which every run returns at
once. -/
theorem channelsAreAttachedForOneRun : Obligations.ChannelsAreAttachedForOneRun := by
  intro fuel i o m status t hrun
  obtain ⟨rfl, k, hk, hhalt, hcycles, -⟩ := run_eq_some_iff.mp hrun
  obtain ⟨hconsumed, hpresented⟩ := cycles_extendsRecords hcycles
  exact ⟨⟨k, m.attach i o, hk, rfl, rfl, rfl, hcycles⟩, hconsumed, hpresented,
    fun fuel' i' o' => ⟨t.machine.attach i' o', run_of_halted (s := t.machine.attach i' o') hhalt fuel', rfl, rfl, rfl⟩⟩

end Sys2Proof.Proofs

/-! PROOFS. 41_io.md R112, R115, R118: a cycle seen through a change of its channels that leaves out the sink's failures, or the listed holds. -/

namespace Sys2Proof.Machine

/-! ### A change of the channels that the attempts respect -/

/-- The state with its input channel changed by `g` and its output channel by `h`. -/
def State.mapChannels (g : InputChannel → InputChannel) (h : OutputChannel → OutputChannel) (s : State) : State :=
  (s.setInput (g s.input)).setOutput (h s.output)

theorem exec_input_of_readByte {s : State} {v : InputAnswer} {ch : InputChannel} (h : s.input.readByte = (some v, ch))
    (b c : Word) : exec (.input b c) s = .next ((s.setInput ch).onMachine (inputEffect b (inputWord v))) := by
  simp only [exec, execInput, h]

theorem exec_output_of_writeByte {s : State} {a : Word} {ch : OutputChannel}
    (h : s.output.writeByte (outputByte a s.machine) = (true, ch)) (c : Word) :
    exec (.output a c) s = .next ((s.setOutput ch).onMachine outputEffect) := by
  simp only [exec, execOutput, h]

section MapChannels

variable {g : InputChannel → InputChannel} {h : OutputChannel → OutputChannel} {s t : State}

/-- An IN, where `g` changes neither the answer of the attempt nor that there is none. -/
theorem exec_input_mapChannels {b c : Word} (hg : (g s.input).readByte = Prod.map id g s.input.readByte)
    (ht : exec (.input b c) s = .next t) : exec (.input b c) (s.mapChannels g h) = .next (t.mapChannels g h) := by
  rcases exec_input_cases b c s with ⟨v, hv, he⟩ | ⟨ch, hch, -, -, he⟩ <;> cases he.symm.trans ht
  · rw [hv] at hg
    exact exec_input_of_readByte (s := s.mapChannels g h) hg b c
  · rw [hch] at hg
    exact exec_input_of_hold (s := s.mapChannels g h) hg b c

/-- An OUT, where `h` does not change whether the attempt ends the transaction. -/
theorem exec_output_mapChannels {a c : Word} (hh : ∀ v, (h s.output).writeByte v = Prod.map id h (s.output.writeByte v))
    (ht : exec (.output a c) s = .next t) : exec (.output a c) (s.mapChannels g h) = .next (t.mapChannels g h) := by
  have hh := hh (outputByte a s.machine)
  rcases exec_output_cases a c s with ⟨hw, he⟩ | ⟨ch, hch, -, -, he⟩ <;> cases he.symm.trans ht
  · rw [hw] at hh
    exact exec_output_of_writeByte (s := s.mapChannels g h) hh c
  · rw [hch] at hh
    exact exec_output_of_hold (s := s.mapChannels g h) hh c

theorem exec_subleq_mapChannels {a b c : Word} (ht : exec (.subleq a b c) s = .next t) :
    exec (.subleq a b c) (s.mapChannels g h) = .next (t.mapChannels g h) := by
  cases (exec_subleq_eq a b c s).symm.trans ht
  exact exec_subleq_eq a b c _

end MapChannels

/-! ### The sink's failures (R112) -/

/-- The output channel with every listed failure of the sink turned into a success. -/
def OutputChannel.withoutFailures (ch : OutputChannel) : OutputChannel :=
  { ch with pending := ch.pending.map (fun e => if e = .failed then .taken else e) }

/-- R112: an attempt at `WriteByte` does not tell a failure from a success. -/
theorem OutputChannel.writeByte_withoutFailures (ch : OutputChannel) (v : Byte) :
    ch.withoutFailures.writeByte v = Prod.map id OutputChannel.withoutFailures (ch.writeByte v) := by
  obtain ⟨pending, tail, presented⟩ := ch
  rcases pending with _ | ⟨ev, rest⟩
  · cases tail <;> rfl
  · cases ev <;> rfl

/-! ### The listed holds (R115) -/

/-- The input channel without its listed holds. -/
def InputChannel.withoutHolds (ch : InputChannel) : InputChannel :=
  { ch with pending := ch.pending.filter (fun e => e != .notYet) }

/-- The output channel without its listed holds. -/
def OutputChannel.withoutHolds (ch : OutputChannel) : OutputChannel :=
  { ch with pending := ch.pending.filter (fun e => e != .notYet) }

/-- An attempt uses up a listed hold, or is the attempt at the channel without holds. -/
theorem InputChannel.readByte_withoutHolds (ch : InputChannel) :
    (∃ held, ch.readByte = (none, held) ∧ held.withoutHolds = ch.withoutHolds) ∨
    ch.withoutHolds.readByte = Prod.map id InputChannel.withoutHolds ch.readByte := by
  obtain ⟨pending, tail, consumed⟩ := ch
  rcases pending with _ | ⟨_ | v, rest⟩
  · right
    cases tail <;> rfl
  · exact .inl ⟨_, rfl, rfl⟩
  · exact .inr rfl

theorem OutputChannel.writeByte_withoutHolds (ch : OutputChannel) :
    (∀ v, ∃ held, ch.writeByte v = (false, held) ∧ held.withoutHolds = ch.withoutHolds) ∨
    ∀ v, ch.withoutHolds.writeByte v = Prod.map id OutputChannel.withoutHolds (ch.writeByte v) := by
  obtain ⟨pending, tail, presented⟩ := ch
  rcases pending with _ | ⟨_ | _ | _, rest⟩
  · right
    cases tail <;> exact fun _ => rfl
  · exact .inl fun _ => ⟨_, rfl, rfl⟩
  · exact .inr fun _ => rfl
  · exact .inr fun _ => rfl

end Sys2Proof.Machine

namespace Sys2Proof.Safety

open Sys2Proof.Machine

theorem withoutSinkFailures_eq_mapChannels (s : State) :
    withoutSinkFailures s = s.mapChannels id OutputChannel.withoutFailures := rfl

theorem withoutHolds_eq_mapChannels (s : State) :
    withoutHolds s = s.mapChannels InputChannel.withoutHolds OutputChannel.withoutHolds := rfl

/-! ### One cycle (R112, R115) -/

theorem exec_withoutSinkFailures {i : Instr} {s t : State} (ht : exec i s = .next t) :
    exec i (withoutSinkFailures s) = .next (withoutSinkFailures t) := by
  simp only [withoutSinkFailures_eq_mapChannels]
  cases i with
  | input b c => exact exec_input_mapChannels rfl ht
  | output a c => exact exec_output_mapChannels s.output.writeByte_withoutFailures ht
  | subleq a b c => exact exec_subleq_mapChannels ht

theorem step_withoutSinkFailures {s t : State} (ht : step s = .next t) :
    step (withoutSinkFailures s) = .next (withoutSinkFailures t) := by
  rcases step_cases ht with ⟨hhalt, rfl⟩ | ⟨hrun, ht⟩
  · exact step_of_halted (s := withoutSinkFailures t) hhalt
  · exact (step_of_running (s := withoutSinkFailures s) hrun).trans (exec_withoutSinkFailures ht)

theorem withoutHolds_setInput {s : State} {ch : InputChannel} (h : ch.withoutHolds = s.input.withoutHolds) :
    withoutHolds (s.setInput ch) = withoutHolds s :=
  congrArg (fun i => (s.setInput i).setOutput s.output.withoutHolds) h

theorem withoutHolds_setOutput {s : State} {ch : OutputChannel} (h : ch.withoutHolds = s.output.withoutHolds) :
    withoutHolds (s.setOutput ch) = withoutHolds s :=
  congrArg (s.setInput s.input.withoutHolds).setOutput h

/-- Without the listed holds there is the same attempt, or none, if it used up a hold. -/
theorem exec_withoutHolds {i : Instr} {s t : State} (ht : exec i s = .next t) :
    withoutHolds t = withoutHolds s ∨ exec i (withoutHolds s) = .next (withoutHolds t) := by
  cases i with
  | input b c =>
    rcases s.input.readByte_withoutHolds with ⟨held, hch, hheld⟩ | hsame
    · cases (exec_input_of_hold hch b c).symm.trans ht
      exact .inl (withoutHolds_setInput hheld)
    · simp only [withoutHolds_eq_mapChannels]
      exact .inr (exec_input_mapChannels hsame ht)
  | output a c =>
    rcases s.output.writeByte_withoutHolds with hhold | hsame
    · obtain ⟨held, hch, hheld⟩ := hhold (outputByte a s.machine)
      cases (exec_output_of_hold hch c).symm.trans ht
      exact .inl (withoutHolds_setOutput hheld)
    · simp only [withoutHolds_eq_mapChannels]
      exact .inr (exec_output_mapChannels hsame ht)
  | subleq a b c =>
    simp only [withoutHolds_eq_mapChannels]
    exact .inr (exec_subleq_mapChannels ht)

theorem step_withoutHolds {s t : State} (ht : step s = .next t) :
    withoutHolds t = withoutHolds s ∨ step (withoutHolds s) = .next (withoutHolds t) := by
  rcases step_cases ht with ⟨-, rfl⟩ | ⟨hrun, ht⟩
  · exact .inl rfl
  · exact (exec_withoutHolds ht).imp_right (step_of_running (s := withoutHolds s) hrun).trans

end Sys2Proof.Safety

namespace Sys2Proof.Proofs

open Sys2Proof.Machine Sys2Proof.Safety

/-- Settles O23, cycle by cycle. -/
theorem sinkFailuresAreInvisible : Obligations.SinkFailuresAreInvisible := by
  intro n s t h
  refine cycles_induction (P := fun n s t => cycles n (withoutSinkFailures s) = .next (withoutSinkFailures t)) ?_ ?_ h
  · exact fun s => rfl
  · exact fun hu hrest => (cycles_succ (step_withoutSinkFailures hu) _).trans hrest

/-- Settles O30, cycle by cycle: a cycle that used up a hold is left out. -/
theorem holdsDoNotChangeResults : Obligations.HoldsDoNotChangeResults := by
  intro n s t h
  refine cycles_induction (P := fun n s t => ∃ m, m ≤ n ∧ cycles m (withoutHolds s) = .next (withoutHolds t)) ?_ ?_ h
  · exact fun s => ⟨0, Nat.le_refl 0, rfl⟩
  · rintro n s u t hu ⟨m, hm, hrest⟩
    rcases step_withoutHolds hu with hsame | hstep
    · exact ⟨m, Nat.le_succ_of_le hm, hsame ▸ hrest⟩
    · exact ⟨m + 1, Nat.succ_le_succ hm, (cycles_succ hstep m).trans hrest⟩

end Sys2Proof.Proofs

/-! PROOFS. 42_subleq.md R130 to R133: the difference in both readings, the branch test as a range and as a sign, and the result of SUBLEQ. -/

namespace Sys2Proof

/-- R132: the Words of a range, counted by their numbers. -/
def Word.rangeEquiv {lo hi : Nat} (h : hi < 65536) : { w : Word // lo ≤ w.toNat ∧ w.toNat ≤ hi } ≃ Set.Icc lo hi where
  toFun w := ⟨w.1.toNat, w.2⟩
  invFun n := ⟨⟨n.1, n.2.2.trans_lt h⟩, n.2⟩
  left_inv _ := rfl
  right_inv _ := rfl

theorem Word.card_range {lo hi : Nat} (h : hi < 65536) :
    Nat.card { w : Word // lo ≤ w.toNat ∧ w.toNat ≤ hi } = hi + 1 - lo := by
  rw [Nat.card_congr (Word.rangeEquiv h), Nat.card_eq_fintype_card, Fintype.card_ofFinset, Nat.card_Icc]

/-- A Boolean test splits the Words in two parts. -/
theorem Word.card_true_add_card_false (p : Word → Bool) :
    Nat.card { w // p w = true } + Nat.card { w // p w = false } = 2 ^ 16 := by
  simp only [← Bool.not_eq_true]
  rw [← Nat.card_sum, Nat.card_congr (Equiv.sumCompl _), Word.card]

/-- R11: a Word is the Word of the number that it reads as unsigned. -/
theorem Word.ofInt_toNat (w : Word) : BitVec.ofInt 16 w.toNat = w := by
  rw [BitVec.ofInt_natCast, BitVec.ofNat_toNat, BitVec.setWidth_eq]

/-- R133: how far two signed readings can lie apart. -/
theorem Word.toInt_sub_toInt_bounds (y x : Word) : -65535 ≤ y.toInt - x.toInt ∧ y.toInt - x.toInt ≤ 65535 := by
  have hy := y.toInt_lt
  have hy' := y.le_toInt
  have hx := x.toInt_lt
  have hx' := x.le_toInt
  omega

namespace Machine

/-! ### The difference (R131) -/

/-- R130: the difference as the Word of a number, in the order of the operands. -/
theorem difference_eq_ofNat (y x : Word) : difference y x = BitVec.ofNat 16 (y.toNat + 65536 - x.toNat) := by
  have hnum : 2 ^ 16 - x.toNat + y.toNat = y.toNat + 65536 - x.toNat := by
    have hx := x.isLt
    omega
  rw [difference, BitVec.sub_def, hnum]

theorem difference_toNat (y x : Word) : (difference y x).toNat = (y.toNat + 65536 - x.toNat) % 65536 := by
  rw [difference_eq_ofNat, BitVec.toNat_ofNat]

/-- R131: whatever integers the two Words are read as, the difference is the Word of the integers' difference. -/
theorem difference_eq_ofInt {y x : Word} {i j : Int} (hy : BitVec.ofInt 16 i = y) (hx : BitVec.ofInt 16 j = x) :
    difference y x = BitVec.ofInt 16 (i - j) := by
  subst hy hx
  apply BitVec.eq_of_toInt_eq
  simp [difference, BitVec.toInt_sub, BitVec.toInt_ofInt]

theorem difference_eq_zero_iff (y x : Word) : difference y x = 0 ↔ x = y :=
  sub_eq_zero.trans eq_comm

/-- R133: the difference read as signed is the signed difference, brought back to the range of a Word where it has left it. -/
theorem difference_toInt (y x : Word) : (difference y x).toInt =
    if 32767 < y.toInt - x.toInt then y.toInt - x.toInt - 65536
    else if y.toInt - x.toInt < -32768 then y.toInt - x.toInt + 65536 else y.toInt - x.toInt := by
  obtain ⟨hlow, hhigh⟩ := Word.toInt_sub_toInt_bounds y x
  rw [difference, BitVec.toInt_sub, Int.bmod_def]
  omega

/-! ### The branch test (R132, R133) -/

theorem branchTaken_iff_toNat (r : Word) : branchTaken r = true ↔ r = 0 ∨ 0x8000 ≤ r.toNat := by
  rw [branchTaken_iff, BitVec.msb_eq_decide, decide_eq_true_iff]

theorem branchTaken_eq_false_iff (r : Word) : branchTaken r = false ↔ 0x0001 ≤ r.toNat ∧ r.toNat ≤ 0x7FFF := by
  rw [← Bool.not_eq_true, branchTaken_iff_toNat]
  bv_omega

theorem branchTaken_iff_toInt (r : Word) : branchTaken r = true ↔ r.toInt ≤ 0 := by
  rw [branchTaken_iff, BitVec.msb_eq_toInt, ← BitVec.toInt_inj, decide_eq_true_iff, Int.le_iff_eq_or_lt,
    BitVec.ofNat_eq_ofNat, BitVec.toInt_zero]

end Machine

end Sys2Proof

namespace Sys2Proof.Proofs

open Sys2Proof.Machine

/-- Settles O34: the two readings are two choices of the integers in `difference_eq_ofInt`. -/
theorem differenceWrapsBothReadings : Obligations.DifferenceWrapsBothReadings := fun y x =>
  ⟨difference_toNat y x, difference_eq_ofInt (Word.ofInt_toNat y) (Word.ofInt_toNat x),
    difference_eq_ofInt BitVec.ofInt_toInt BitVec.ofInt_toInt, BitVec.sub_self x, BitVec.sub_zero y⟩

/-- Settles O35: the Words that do not branch are a range, and the others are the rest of the 65536. -/
theorem branchTestReadsTopBitOrZero : Obligations.BranchTestReadsTopBitOrZero := by
  have hfalse : Nat.card { r : Word // branchTaken r = false } = 32767 := by
    rw [Nat.card_congr (Equiv.subtypeEquivRight branchTaken_eq_false_iff), Word.card_range (by decide)]
  have hall := Word.card_true_add_card_false branchTaken
  exact ⟨fun r => ⟨branchTaken_iff_getLsbD r, branchTaken_eq_false_iff r⟩, by omega, hfalse⟩

/-- Settles O36: the sign of the difference, in each of the three ranges of the signed difference `d`. -/
theorem branchTestAgainstSignedOrder : Obligations.BranchTestAgainstSignedOrder := by
  intro y x r d
  obtain ⟨hlow, hhigh⟩ : -65535 ≤ d ∧ d ≤ 65535 := Word.toInt_sub_toInt_bounds y x
  have hr : r.toInt = if 32767 < d then d - 65536 else if d < -32768 then d + 65536 else d := difference_toInt y x
  have hzero : r = 0 ↔ x = y := difference_eq_zero_iff y x
  refine ⟨branchTaken_iff_toInt r, fun hge hle => ?inRange, fun hgt => ?above, fun hlt => ?below, hzero, fun hne => ?unsigned⟩
  case inRange =>
    have hrd : r.toInt = d := by rw [hr]; omega
    rw [branchTaken_iff_toInt, hrd]
    exact ⟨rfl, sub_nonpos⟩
  case above =>
    have hrd : r.toInt = d - 65536 := by rw [hr, if_pos hgt]
    rw [branchTaken_iff_toInt]
    omega
  case below =>
    have hrd : r.toInt = d + 65536 := by rw [hr]; omega
    rw [← Bool.not_eq_true, branchTaken_iff_toInt]
    omega
  case unsigned =>
    rw [← difference_toNat, branchTaken_iff_toNat]
    exact or_iff_right (mt hzero.mp hne)

/-- Settles O15: `exec` runs the SUBLEQ on the machine alone, and the number of the statement is the difference. -/
theorem subleqResult : Obligations.SubleqResult := by
  intro a b c s ha hb
  obtain ⟨t, ht, hpc, hcell, hframe⟩ := exec_subleq_result a b c s
  have henv : t.env = s.env := by cases (exec_subleq_eq a b c s).symm.trans ht; rfl
  refine ⟨decode_of_no_sentinel ha hb, t, ht, ?_⟩
  simp only [← difference_eq_ofNat, ← branchTaken_iff_getLsbD, ← Word.add_three_eq_ofNat_add]
  exact ⟨hcell, hframe, fun h => hpc.trans (if_pos h), fun h => hpc.trans (if_neg h), congrArg Environment.input henv,
    congrArg Environment.output henv⟩

end Sys2Proof.Proofs

/-! PROOFS. The statements of 70_reset_and_hazards.md about `Construct` and `Reset`. -/

namespace Sys2Proof.Machine

/-- R173, 40_sequencer.md R94: the fetch that follows a `Reset` reads the first three cells of the memory the program left. -/
theorem MachineState.warmReset_fetch (m : MachineState) :
    m.warmReset.fetch = ⟨m.memRead 0, m.memRead 1, m.memRead 2⟩ :=
  MachineState.fetch_eq_iff.mpr ⟨rfl, rfl, rfl⟩

theorem MachineState.warmReset_of_pc_eq_zero {m : MachineState} (h : m.pc = 0) : m.warmReset = m :=
  MachineState.eq_iff_memRead.mpr ⟨m.warmReset_pc.trans h.symm, m.warmReset_memRead⟩

end Sys2Proof.Machine

namespace Sys2Proof.Proofs

open Sys2Proof.Machine

/-- Settles O2: such an image is on the other side of the one test that `construct` makes. -/
theorem constructRefusesLongImage : Obligations.ConstructRefusesLongImage := by
  intro image (h : Config.memSize < image.length)
  exact construct_of_gt h.not_ge

/-- Settles O3: the running phase is that of `pc` 0, and the other parts are what `warmReset` writes and leaves. -/
theorem warmResetWritesPcOnly : Obligations.WarmResetWritesPcOnly := by
  constructor
  · intro m
    exact ⟨m.warmReset_pc, m.warmReset_mem, MachineState.halted_of_pc_eq_zero m.warmReset_pc, m.warmReset_fetch,
      MachineState.warmReset_of_pc_eq_zero⟩
  · intro s
    exact ⟨s.warmReset_machine, s.warmReset_input, s.warmReset_output⟩

end Sys2Proof.Proofs
